-- ==== Sys2Proof/Word.lean ====
section
/-! DEFINITION. The value types of the block: the spec's data formats as bit vectors. Every quantity is
unsigned and bit 0 is the least significant bit (00_scope.md R7; widths R5). -/

namespace Sys2Proof

/-- One byte lane or channel, `W_CH` = 8 bits (00_scope.md R5). -/
abbrev Byte := BitVec 8

/-- `Packed32Color`, format `IN32`, `W_IN` = 32 bits (30_encoding.md R34). -/
abbrev Packed32Color := BitVec 32

/-- `Packed16Color`, format `OUT16`, `W_OUT` = 16 bits (30_encoding.md R35). -/
abbrev Packed16Color := BitVec 16

end Sys2Proof
end

