-- ==== Sys2Proof/Config.lean ====
section
/-! DEFINITION. What an implementation or an integrator fixes: the two open parameters of 00_scope.md R6, the
constant masks of the formats, and the one value the spec leaves free (70_reset_and_hazards.md R98). -/

namespace Sys2Proof.Config

/-- `OUT16_STORE_ORDER`: the byte order in which an integrator stores a result (20_memory.md R29). -/
inductive StoreOrder where
  | little
  | big
deriving DecidableEq, Repr

/-- The open parameters of 00_scope.md R6. No rule of the functional model reads either. -/
structure Params where
  /-- `T_PD`, the propagation delay, in ticks of a time unit the integrator chooses (assumption 3). -/
  tPd : Nat
  /-- `OUT16_STORE_ORDER`; the spec's programs take `little` (decision D5, assumption 8). -/
  storeOrder : StoreOrder := .little
deriving DecidableEq, Repr

/-- The input bits that reach the output (40_convert.md R58). -/
def usedInputMask : Packed32Color := 0x00F8FCF8#32

/-- The sixteen dropped input bits (40_convert.md R58; don't-care, 30_encoding.md R41). -/
def droppedInputMask : Packed32Color := 0xFF070307#32

/-- What stands on `color16_o` while it is unsettled: any 16-bit value (70_reset_and_hazards.md R98, entry U2).
A FREE VALUE: it has no body, and the argument is only a counter of draws (assumption 4). -/
opaque unsettledOutput : Nat → Packed16Color

end Sys2Proof.Config
end

