-- ==== Sys2Proof/Machine/Operands.lean ====
section
/-! DEFINITION. Operand assembly and the value the block computes: byte lanes (20_memory.md R20), the stages
EXTRACT, TRUNCATE, PACK (40_convert.md R48 to R50) and the function `CONVERT` (R47). The stages are wires of one
evaluation, not state (10_state.md R18). -/

namespace Sys2Proof.Machine

/-- `Byte(v, k) = v[8k+7 : 8k]` (20_memory.md R20). -/
def byteLane (v : Packed32Color) (k : Nat) : Byte :=
  v.extractLsb' (8 * k) 8

/-- The four byte lanes of a word, offset 0 first (20_memory.md R20). -/
def laneBytes (v : Packed32Color) : List Byte :=
  [byteLane v 0, byteLane v 1, byteLane v 2, byteLane v 3]

/-- The word with the given channels, `{A8, B8, G8, R8}` (30_encoding.md R34). -/
def wordOfChannels (a b g r : Byte) : Packed32Color :=
  a ++ b ++ g ++ r

/-- The low `n` bytes of a number, least significant first (20_memory.md R20). -/
def bytesOfNat : Nat → Nat → List Byte
  | 0, _ => []
  | n + 1, w => BitVec.ofNat 8 w :: bytesOfNat n (w / 256)

/-- What EXTRACT yields (40_convert.md R48). -/
structure Channels where
  r8 : Byte
  g8 : Byte
  b8 : Byte
  a8 : Byte
deriving DecidableEq, Repr

/-- What TRUNCATE yields (40_convert.md R49). -/
structure Fields where
  r5 : BitVec 5
  g6 : BitVec 6
  b5 : BitVec 5
deriving DecidableEq, Repr

/-- Stage EXTRACT (40_convert.md R48). -/
def extract (c : Packed32Color) : Channels :=
  { r8 := byteLane c 0, g8 := byteLane c 1, b8 := byteLane c 2, a8 := byteLane c 3 }

/-- Stage TRUNCATE: logical right shifts by 3, 2, 3, never rounding (40_convert.md R49). -/
def truncate (r8 g8 b8 : Byte) : Fields :=
  { r5 := (r8 >>> 3).setWidth 5, g6 := (g8 >>> 2).setWidth 6, b5 := (b8 >>> 3).setWidth 5 }

/-- Stage PACK, `{R5, G6, B5}` (40_convert.md R50; 30_encoding.md R35, R38). -/
def pack (f : Fields) : Packed16Color :=
  f.r5 ++ f.g6 ++ f.b5

/-- `CONVERT` (40_convert.md R47): alpha is extracted and dropped (R51). -/
def convert (c : Packed32Color) : Packed16Color :=
  let ch := extract c
  pack (truncate ch.r8 ch.g8 ch.b8)

end Sys2Proof.Machine
end

