-- ==== Sys2Proof/Syntax.lean ====
section
/-! DEFINITION. The instruction (one row of spec/opcode_table.json) and the spec's listing notation. -/

namespace Sys2Proof

/-- The one operation. Its operands are the four fields of `IN32`, most significant first as in the pattern
`aaaaaaaabbbbbbbbggggggggrrrrrrrr` (30_encoding.md R34, R37, R39). -/
inductive Instr where
  /-- `CONVERT` with Alpha, Blue, Green, Red (40_convert.md R47). -/
  | convert (a b g r : Byte)
deriving DecidableEq, Repr

/-- One line of a listing as it is written, before any check (30_encoding.md R45): the operand is a number, or
four byte operands, any of which the text may have left out (R46). -/
inductive ListingLine where
  /-- `CONVERT 0xAABBGGRR`. -/
  | word (w : Nat)
  /-- `CONVERT R=.., G=.., B=.., A=..`; `none` is an operand the text leaves out. -/
  | tuple (r g b a : Option Nat)
deriving DecidableEq, Repr

/-- A program: a finite list of evaluations in the order the integrator presents them (30_encoding.md R45). -/
abbrev Listing := List ListingLine

end Sys2Proof
end

