-- ==== Sys2Proof/WellFormed.lean ====
section
/-! DEFINITION. Well-formedness. No encoding is illegal or reserved (30_encoding.md R40), so every instruction is
well formed; a listing line must give all 32 bits (R46), each operand within its width (R36). -/

namespace Sys2Proof

/-- Every value of every field is legal (30_encoding.md R40, R41). -/
def Instr.wellFormed : Instr → Bool
  | .convert _ _ _ _ => true

/-- A byte operand of a listing line: present (30_encoding.md R46) and 8 bits wide (R37). -/
def ListingLine.byteOk : Option Nat → Bool
  | some n => decide (n < 2 ^ 8)
  | none => false

/-- A listing line that denotes an input word (30_encoding.md R45, R46). -/
def ListingLine.wellFormed : ListingLine → Bool
  | .word w => decide (w < 2 ^ 32)
  | .tuple r g b a => byteOk r && byteOk g && byteOk b && byteOk a

end Sys2Proof
end

