-- ==== Sys2Proof/Decode.lean ====
section
/-! DEFINITION. The decoder (30_encoding.md R34, R39, R40), then the encoder, then the reading of a listing line
(R45). Every 32-bit word selects `CONVERT`: the only thing a decoder can reject is a run of bytes that is not one
32-bit word (R36). -/

namespace Sys2Proof

/-- Why bytes are not an input word of the block. -/
inductive DecodeReject where
  /-- Not exactly four bytes (30_encoding.md R36; 60_exceptions.md R92). Safe: no rule gives it an output. -/
  | wrongWidth (bytes : Nat)
deriving DecidableEq, Repr

/-- The instruction a word selects: always `CONVERT`, its fields at [31:24], [23:16], [15:8], [7:0] (R34, R39). -/
def decodeWord (w : Packed32Color) : Instr :=
  .convert (Machine.byteLane w 3) (Machine.byteLane w 2) (Machine.byteLane w 1) (Machine.byteLane w 0)

/-- The decoder over bytes at ascending offsets, Red first (20_memory.md R20). -/
def decode : List Byte → Except DecodeReject Instr
  | [b0, b1, b2, b3] => .ok (decodeWord (Machine.wordOfChannels b3 b2 b1 b0))
  | bytes => .error (.wrongWidth bytes.length)

/-- The input word of an instruction (30_encoding.md R34, R39). -/
def encode : Instr → Packed32Color
  | .convert a b g r => Machine.wordOfChannels a b g r

/-- The same word as bytes at ascending offsets: RR, GG, BB, AA (30_encoding.md R45). -/
def encodeBytes (i : Instr) : List Byte :=
  Machine.laneBytes (encode i)

/-- The instruction the decoder reads from the bits `w` of a table row of `nbits` bits, bits above `nbits` zero.
A row of more than 32 bits is no input of the block (assumption 13). -/
def decodeTableWord (nbits w : Nat) : Option Instr :=
  match decode (Machine.bytesOfNat (max 4 ((nbits + 7) / 8)) (w % 2 ^ nbits)) with
  | .ok i => some i
  | .error _ => none

/-- The word of a listing line; none where the line is not well formed (30_encoding.md R45, R46). No operand is
ever defaulted. -/
def ListingLine.toWord : ListingLine → Option Packed32Color
  | .word w => if w < 2 ^ 32 then some (BitVec.ofNat 32 w) else none
  | .tuple (some r) (some g) (some b) (some a) =>
      if r < 2 ^ 8 ∧ g < 2 ^ 8 ∧ b < 2 ^ 8 ∧ a < 2 ^ 8 then
        some (BitVec.ofNat 32 (r + g * 2 ^ 8 + b * 2 ^ 16 + a * 2 ^ 24))
      else none
  | .tuple _ _ _ _ => none

/-- The input words of a listing, in order; none as soon as one line is not well formed. -/
def Listing.toWords : Listing → Option (List Packed32Color)
  | [] => some []
  | l :: ls =>
      match l.toWord, Listing.toWords ls with
      | some w, some ws => some (w :: ws)
      | _, _ => none

end Sys2Proof
end

