-- ==== Sys2Proof/Machine/State.lean ====
section
/-! DEFINITION. The machine's state, its reset, and the reasons a step can stop. The spec gives the block no
register, program counter, flag, control register or memory (10_state.md R9 to R12, R15 to R17); all that can hold
a value are its two ports (R13, R14, R19). -/

namespace Sys2Proof.Machine

/-- The values on the two ports. They are wires, not registers (10_state.md R9): the step reads only `color32_i`,
and what stood on `color16_o` before is never read (R17; assumption 1). -/
structure State where
  /-- The input port, driven by the integrator (10_state.md R13). -/
  color32_i : Packed32Color
  /-- The output port, driven by the block (10_state.md R14). -/
  color16_o : Packed16Color
deriving DecidableEq, Repr

/-- The reasons a step can fault: none, the exception set is empty (60_exceptions.md R79, R92). Nobody raises one. -/
inductive Fault where
deriving DecidableEq, Repr

/-- The reasons for a refusal. No step of the block refuses (60_exceptions.md R92); all but the first are answers
of the model's boundary to something that is no input of the block. -/
inductive Refusal where
  /-- An arm without a meaning. Raised by nobody: the one instruction has its meaning. Safe. -/
  | notModelled (mnemonic : String)
  /-- `driveLevels`: an X, Z or out-of-range level on a wire (70_reset_and_hazards.md R104, entry U1). Safe. -/
  | notBinaryInput
  /-- `driveLevels`: not 32 wires (60_exceptions.md R92, entry U1). Safe. -/
  | wrongWidth (wires : Nat)
  /-- `driveBy`: nobody drives `color32_i` (93_implementation_defined.md U4). Safe. -/
  | undrivenInput
  /-- `driveBy`: two or more drivers at once (60_exceptions.md R90, entry U4). Safe. -/
  | busContention (drivers : Nat)
deriving DecidableEq, Repr

/-- After power-up, at the first settled instant. The block has no reset and imposes no initial input (10_state.md
R19; 70_reset_and_hazards.md R93, R94): the input is taken as zero and `T_PD` as passed, DESIGN CHOICE, unsafe
(assumption 2); the output is then what R19 says it is. Before `T_PD` has passed see `Bench.start`. -/
def State.reset : State :=
  { color32_i := 0#32, color16_o := convert 0#32 }

end Sys2Proof.Machine
end

