-- ==== Sys2Proof/Machine/Ops.lean ====
section
/-! DEFINITION. The named operations over the state: driving the two ports (00_scope.md R8). There is no register,
memory, program counter or exception operation: the spec says that none exists (00_scope.md R8; 10_state.md R9,
R10, R16; 60_exceptions.md R79, R83, R84). -/

namespace Sys2Proof.Machine

/-- The integrator puts a word on `color32_i` (10_state.md R13). Nothing else changes (20_memory.md R26); that the
output follows is the next evaluation. -/
def State.drive (s : State) (c : Packed32Color) : State :=
  { s with color32_i := c }

/-- `color16_o <- v`: drive the output port (00_scope.md R8, 10_state.md R14). -/
def State.driveColor16 (s : State) (v : Packed16Color) : State :=
  { s with color16_o := v }

end Sys2Proof.Machine
end

