-- ==== Sys2Proof/Machine/Convert.lean ====
section
/-! DEFINITION. The meaning of the one instruction, `CONVERT` (40_convert.md R47). -/

namespace Sys2Proof.Machine

/-- `color16_o <- CONVERT({A8, B8, G8, R8})` (40_convert.md R47): always a next state, no flag, no exception, and
only `color16_o` is written (R52, R53; 60_exceptions.md R79, R92). -/
def execConvert (a b g r : Byte) (s : State) : Host.Outcome State Fault Refusal :=
  .next (s.driveColor16 (convert (wordOfChannels a b g r)))

end Sys2Proof.Machine
end

