-- ==== Sys2Proof/Machine/Step.lean ====
section
/-! DEFINITION. The step: one evaluation at a settled instant (00_scope.md R8; 70_reset_and_hazards.md R97). -/

namespace Sys2Proof.Machine

/-- One evaluation: the operation selected by the word on `color32_i` (30_encoding.md R39). Nothing is fetched
(10_state.md R10) and every word decodes (30_encoding.md R40). -/
def step (s : State) : Host.Outcome State Fault Refusal :=
  exec (decodeWord s.color32_i) s

/-- The integrator presents a word of `nbits` bits on `color32_i`, bits above it zero: what the next step
evaluates (assumption 5). DESIGN CHOICE (assumption 13): a narrower word is filled up with zeros, and a word of more
than 32 bits is no input (30_encoding.md R36; 60_exceptions.md R92, entry U1), so nothing is presented. -/
def State.withFetchWord (s : State) (nbits w : Nat) : State :=
  if nbits ≤ 32 then s.drive (BitVec.ofNat 32 (w % 2 ^ nbits)) else s

end Sys2Proof.Machine
end

