-- ==== Sys2Proof/Machine/Integrator.lean ====
section
/-! DEFINITION. What the integrator does with the block at settled instants: single evaluations, sequences of them
(40_convert.md R62), several users and several instances (60_exceptions.md R90), and the boundary at which an input
that is not a 32-bit binary value is refused (R92; 93_implementation_defined.md U1, U4). Nothing here is part of
the block: each definition is made of `State.drive` and `step`. -/

namespace Sys2Proof.Machine

/-- One evaluation: present `c`, then let the block answer (00_scope.md R8). -/
def evaluate (c : Packed32Color) (s : State) : Host.Outcome State Fault Refusal :=
  step (s.drive c)

/-- Present the words of a list one after another to one instance; the outputs in the same order
(40_convert.md R62, 30_encoding.md R45). -/
def present : List Packed32Color → State → Host.Outcome (State × List Packed16Color) Fault Refusal
  | [], s => .next (s, [])
  | c :: cs, s =>
      match evaluate c s with
      | .fault r => .fault r
      | .refused r => .refused r
      | .next t =>
          match present cs t with
          | .fault r => .fault r
          | .refused r => .refused r
          | .next (u, ys) => .next (u, t.color16_o :: ys)

/-- Several users time-share one instance: each word carries its user, and each output is kept with the user of the
word that produced it (20_memory.md R31, 60_exceptions.md R90). -/
def presentShared (xs : List (Nat × Packed32Color)) (s : State) :
    Host.Outcome (State × List (Nat × Packed16Color)) Fault Refusal :=
  match present (xs.map Prod.snd) s with
  | .fault r => .fault r
  | .refused r => .refused r
  | .next (t, ys) => .next (t, (xs.map Prod.fst).zip ys)

/-- The entries of one user, in that user's own order. -/
def ofUser {α : Type} (u : Nat) (xs : List (Nat × α)) : List α :=
  (xs.filter (fun x => x.1 == u)).map Prod.snd

/-- The state in which the block has answered the word on its input. A step never stops
(60_exceptions.md R92), so the last two arms are never taken. -/
def settle (s : State) : State :=
  match step s with
  | .next t => t
  | .fault _ => s
  | .refused _ => s

/-- Present `c` to instance `k` of a board of independent copies; there is nothing to do for a copy that is not
there (60_exceptions.md R90, assumption 16). -/
def evaluateOn (k : Nat) (c : Packed32Color) (board : List State) : List State :=
  board.modify k (fun s => settle (s.drive c))

/-- A schedule of evaluations over a board, each naming its instance. -/
def runBoard : List (Nat × Packed32Color) → List State → List State
  | [], board => board
  | (k, c) :: rest, board => runBoard rest (evaluateOn k c board)

/-- A level on one wire of `color32_i`: a valid logic value or not (70_reset_and_hazards.md R104). -/
inductive Level where
  | zero
  | one
  /-- Unknown or out of range. -/
  | x
  /-- High impedance. -/
  | z
deriving DecidableEq, Repr

/-- The logic value of a level, where it has one. -/
def Level.toBit : Level → Option Bool
  | .zero => some false
  | .one => some true
  | .x => none
  | .z => none

/-- The logic values of all wires, wire 0 first; none if one of them has no logic value. -/
def bitsOfLevels : List Level → Option (List Bool)
  | [] => some []
  | l :: ls =>
      match l.toBit, bitsOfLevels ls with
      | some b, some bs => some (b :: bs)
      | _, _ => none

/-- The unsigned value of wires, wire 0 of weight 1 (00_scope.md R7). -/
def natOfBits : List Bool → Nat
  | [] => 0
  | b :: bs => b.toNat + 2 * natOfBits bs

/-- Drive the input wire by wire. What is not 32 binary levels is no input of the block and is refused
(70_reset_and_hazards.md R104, 60_exceptions.md R92, entry U1). -/
def driveLevels (levels : List Level) (s : State) : Host.Outcome State Fault Refusal :=
  if levels.length = 32 then
    match bitsOfLevels levels with
    | some bs => .next (s.drive (BitVec.ofNat 32 (natOfBits bs)))
    | none => .refused .notBinaryInput
  else .refused (.wrongWidth levels.length)

/-- Drive the input with the words of all present drivers: exactly one may drive it (60_exceptions.md R90,
93_implementation_defined.md U4). -/
def driveBy : List Packed32Color → State → Host.Outcome State Fault Refusal
  | [], _ => .refused .undrivenInput
  | [c], s => .next (s.drive c)
  | c :: d :: rest, _ => .refused (.busContention (c :: d :: rest).length)

end Sys2Proof.Machine
end

