-- ==== Sys2Proof/Machine/Bench.lean ====
section
/-! DEFINITION. The block in time: an integrator that changes the input, lets time pass, and reads the output at any
instant (70_reset_and_hazards.md R97, R98, R100), and a registered integration (R103). Time is counted in ticks of a
unit the integrator chooses (assumption 3). No rule of the functional model reads any of this (R101). -/

namespace Sys2Proof.Machine

/-- An instance on a bench. -/
structure Bench where
  /-- The ports. -/
  block : State
  /-- Ticks since `color32_i` last changed (70_reset_and_hazards.md R97). -/
  held : Nat
  /-- The model's own counter of free values (assumption 4). -/
  draws : Nat
deriving DecidableEq, Repr

/-- What stands on the output now: the answer to the input once it has been held for `T_PD` (R97), any value before
that (R98, entry U2). -/
def Bench.refresh (p : Config.Params) (b : Bench) : Bench :=
  if p.tPd ≤ b.held then { b with block := settle b.block }
  else { b with block := b.block.driveColor16 (Config.unsettledOutput b.draws), draws := b.draws + 1 }

/-- What the integrator can do. -/
inductive BenchAction where
  /-- Put a word on `color32_i`. -/
  | drive (c : Packed32Color)
  /-- Let `dt` ticks pass. -/
  | wait (dt : Nat)
  /-- Read `color16_o`. -/
  | sample
deriving DecidableEq, Repr

/-- One action and the values it reads. Driving the word that is there already is no change; reading has no effect
(20_memory.md R26). -/
def Bench.act (p : Config.Params) : BenchAction → Bench → Bench × List Packed16Color
  | .drive c, b =>
      (Bench.refresh p
        { b with block := b.block.drive c, held := if c = b.block.color32_i then b.held else 0 }, [])
  | .wait dt, b => (Bench.refresh p { b with held := b.held + dt }, [])
  | .sample, b => (b, [b.block.color16_o])

/-- A schedule of actions and all values it reads, in order. -/
def Bench.run (p : Config.Params) : List BenchAction → Bench → Bench × List Packed16Color
  | [], b => (b, [])
  | a :: as, b =>
      let here := Bench.act p a b
      let later := Bench.run p as here.1
      (later.1, here.2 ++ later.2)

/-- The bench at the instant of power-up: the input of `State.reset`, held for 0 ticks, so that with `T_PD > 0` any
value stands on `color16_o` (10_state.md R19, 70_reset_and_hazards.md R98): the model's free value, no zero is assumed
(DESIGN CHOICE, assumptions 2, 3 and 4; 91_not_in_source.md N5). -/
def Bench.start (p : Config.Params) : Bench :=
  Bench.refresh p { block := State.reset, held := 0, draws := 0 }

/-- The ticks a schedule lets pass. -/
def totalWait : List BenchAction → Nat
  | [] => 0
  | .wait dt :: as => dt + totalWait as
  | .drive _ :: as => totalWait as
  | .sample :: as => totalWait as

/-- The schedule that keeps the settle time: each word is held for `T_PD` and then sampled (R97, R100). -/
def disciplined (p : Config.Params) : List Packed32Color → List BenchAction
  | [] => []
  | c :: cs => .drive c :: .wait p.tPd :: .sample :: disciplined p cs

/-- An integrator's wrapper: a launching register drives `color32_i`, a capturing register takes `color16_o`, both
on one clock (70_reset_and_hazards.md R103). The wrapper is not the block (R101). -/
structure Registered where
  /-- The block; its input is the launching register's output. -/
  block : State
  /-- The capturing register. -/
  captured : Packed16Color
  /-- The model's own counter of free values (assumption 4). -/
  draws : Nat
deriving DecidableEq, Repr

/-- One clock edge, with `next` at the launching register's input: the capturing register takes the answer to the
word launched at the edge before, if the period exceeds `T_PD` plus its set-up time, and any value otherwise
(70_reset_and_hazards.md R97, R103; assumption 15). -/
def Registered.edge (p : Config.Params) (setup period : Nat) (next : Packed32Color) (w : Registered) : Registered :=
  if p.tPd + setup < period then
    { w with block := (settle w.block).drive next, captured := (settle w.block).color16_o }
  else
    { block := w.block.drive next, captured := Config.unsettledOutput w.draws, draws := w.draws + 1 }

/-- Successive clock edges and the value captured at each. -/
def Registered.run (p : Config.Params) (setup period : Nat) :
    List Packed32Color → Registered → Registered × List Packed16Color
  | [], w => (w, [])
  | c :: cs, w =>
      let here := Registered.edge p setup period c w
      let later := Registered.run p setup period cs here
      (later.1, here.captured :: later.2)

end Sys2Proof.Machine
end

