-- ==== Sys2Proof/Machine/Memory.lean ====
section
/-! DEFINITION. The byte-addressed memory of the integrator-side harness (20_memory.md R28) and the primitives MemRead
and MemWrite (00_scope.md R8). The block itself has no memory (10_state.md R16). -/

namespace Sys2Proof.Machine

/-- (address, byte) pairs, addresses strictly rising, no byte equal to what an unlisted address reads as. -/
abbrev Memory := List Host.Cell

/-- What an unlisted address reads as: unwritten harness memory is poisoned with 0xEE (95_test_vectors.md section 7;
assumption 9). -/
def Memory.poison : Byte := 0xEE#8

/-- Read one byte. -/
def Memory.read : Memory → Nat → Byte
  | [], _ => Memory.poison
  | (b, u) :: rest, a => if a = b then u else if a < b then Memory.poison else Memory.read rest a

/-- Write one byte, keeping the canonical form. -/
def Memory.write : Memory → Nat → Byte → Memory
  | [], a, v => if v = Memory.poison then [] else [(a, v)]
  | (b, u) :: rest, a, v =>
      if a < b then (if v = Memory.poison then (b, u) :: rest else (a, v) :: (b, u) :: rest)
      else if a = b then (if v = Memory.poison then rest else (b, v) :: rest)
      else (b, u) :: Memory.write rest a v

/-- The canonical form, all addresses at least `lo`. -/
def Memory.wfFrom : Nat → Memory → Bool
  | _, [] => true
  | lo, (b, u) :: rest => decide (lo ≤ b) && decide (u ≠ Memory.poison) && Memory.wfFrom (b + 1) rest

/-- The canonical form. -/
def Memory.wf (m : Memory) : Bool :=
  Memory.wfFrom 0 m

/-- Write bytes at ascending addresses from `a`. -/
def Memory.writeBytes : Memory → Nat → List Byte → Memory
  | m, _, [] => m
  | m, a, v :: vs => Memory.writeBytes (Memory.write m a v) (a + 1) vs

/-- `MemRead(a, n)`: `n` bytes assembled with byte `a` least significant (00_scope.md R8, 20_memory.md R28). -/
def memRead (m : Memory) (a : Nat) : Nat → Nat
  | 0 => 0
  | n + 1 => (Memory.read m a).toNat + 256 * memRead m (a + 1) n

/-- The `n` low bytes of `v` in a store order, the lowest address first (20_memory.md R29). -/
def storedBytes : Config.StoreOrder → Nat → Nat → List Byte
  | .little, n, v => bytesOfNat n v
  | .big, n, v => (bytesOfNat n v).reverse

/-- `MemWrite(a, n, v)` in the store order of the harness (00_scope.md R8, 20_memory.md R28, R29). -/
def memWrite (order : Config.StoreOrder) (m : Memory) (a n v : Nat) : Memory :=
  Memory.writeBytes m a (storedBytes order n v)

end Sys2Proof.Machine
end

