-- ==== Sys2Proof/Machine/Harness.lean ====
section
/-! DEFINITION. The integrator-side harness `ConvertBuffer` (20_memory.md R28): a loop of its own round the block.
The block sees only the successive input words. -/

namespace Sys2Proof.Machine

/-- The harness: its private memory and the block it drives. -/
structure Harness where
  mem : Memory
  block : State
deriving DecidableEq, Repr

/-- Pixel `i` of `ConvertBuffer`: read four bytes, evaluate, store two (20_memory.md R28). -/
def convertPixel (order : Config.StoreOrder) (src dst i : Nat) (h : Harness) : Host.Outcome Harness Fault Refusal :=
  match evaluate (BitVec.ofNat 32 (memRead h.mem (src + 4 * i) 4)) h.block with
  | .fault r => .fault r
  | .refused r => .refused r
  | .next t => .next { mem := memWrite order h.mem (dst + 2 * i) 2 t.color16_o.toNat, block := t }

/-- Pixels `i` to `i + n - 1`, ascending. -/
def convertPixels (order : Config.StoreOrder) (src dst : Nat) : Nat → Nat → Harness → Host.Outcome Harness Fault Refusal
  | _, 0, h => .next h
  | i, n + 1, h =>
      match convertPixel order src dst i h with
      | .fault r => .fault r
      | .refused r => .refused r
      | .next h' => convertPixels order src dst (i + 1) n h'

/-- `ConvertBuffer(src, dst, n)` (20_memory.md R28), the store order by R29. -/
def convertBuffer (order : Config.StoreOrder) (src dst n : Nat) (h : Harness) : Host.Outcome Harness Fault Refusal :=
  convertPixels order src dst 0 n h

/-- What the harness requires of its ranges: no later read sees an earlier write (20_memory.md R28). The loop does
not check it (assumption 10). -/
def rangesOk (src dst n : Nat) : Bool :=
  decide (dst + 2 * n ≤ src) || decide (src + 4 * n ≤ dst) || decide (dst = src)

end Sys2Proof.Machine
end

