-- ==== Sys2Proof/Machine/Strategies.lean ====
section
/-! DEFINITION. The documented formulations of `CONVERT` (41_strategies.md). They are no operations and cannot be
selected (30_encoding.md R39): separate definitions, to be proved equal to `convert` (R72, R73). -/

namespace Sys2Proof.Machine

/-- `(r5 << 11) | (g6 << 5) | b5` of byte-wide truncated channels, at width 16 (41_strategies.md R68 to R70). -/
def packByOr (r5 g6 b5 : Byte) : Packed16Color :=
  (r5.setWidth 16 <<< 11) ||| (g6.setWidth 16 <<< 5) ||| b5.setWidth 16

/-- Strategy S1, shift and mask on the integer (41_strategies.md R68), the shifts taken at width 32. -/
def strategy1 (c : Packed32Color) : Packed16Color :=
  let r8 := (c >>> 0) &&& 0xFF#32
  let g8 := (c >>> 8) &&& 0xFF#32
  let b8 := (c >>> 16) &&& 0xFF#32
  let r5 := r8 >>> 3
  let g6 := g8 >>> 2
  let b5 := b8 >>> 3
  ((r5 <<< 11) ||| (g6 <<< 5) ||| b5).extractLsb' 0 16

/-- Strategy S2, the four bytes as an array `p`, `p[k] = Byte(c, k)` (41_strategies.md R69). The byte order is the
port's fixed one, never a platform's (R74). -/
def strategy2 (c : Packed32Color) : Packed16Color :=
  let p : Vector Byte 4 := #v[byteLane c 0, byteLane c 1, byteLane c 2, byteLane c 3]
  let r5 := p[0] >>> 3
  let g6 := p[1] >>> 2
  let b5 := p[2] >>> 3
  packByOr r5 g6 b5

/-- Strategy S3, S2 without the named array (41_strategies.md R70). -/
def strategy3 (c : Packed32Color) : Packed16Color :=
  packByOr (byteLane c 0 >>> 3) (byteLane c 1 >>> 2) (byteLane c 2 >>> 3)

/-- Strategy S4, one fused shift a channel, the leaked bits masked off (41_strategies.md R71; conflict C4,
assumption 7). -/
def strategy4 (c : Packed32Color) : Packed16Color :=
  (((byteLane c 0).setWidth 16 <<< 8) &&& 0xF800#16)
    ||| (((byteLane c 1).setWidth 16 <<< 3) &&& 0x07E0#16)
    ||| ((byteLane c 2).setWidth 16 >>> 3)

/-- The equivalence obligation at one input: all four strategies and `CONVERT` agree (41_strategies.md R72). -/
def StrategiesAgree (x : Packed32Color) : Prop :=
  strategy1 x = strategy2 x ∧ strategy2 x = strategy3 x ∧ strategy3 x = strategy4 x ∧ strategy4 x = convert x

/-- Wiring form S0: sixteen wires (41_strategies.md R75). -/
def wiringForm (c : Packed32Color) : Packed16Color :=
  c.extractLsb' 3 5 ++ c.extractLsb' 10 6 ++ c.extractLsb' 19 5

/-- Mask-then-shift form, shifts at width 32, result at width 16 (41_strategies.md R76). -/
def maskForm (c : Packed32Color) : Packed16Color :=
  (((c &&& 0x000000F8#32) <<< 8) ||| ((c &&& 0x0000FC00#32) >>> 5) ||| ((c &&& 0x00F80000#32) >>> 19)).setWidth 16

end Sys2Proof.Machine
end

