-- ==== Sys2Proof/Safety.lean ====
section
/-! DEFINITION. What counts as a good state, a safe step and a conforming implementation. -/

namespace Sys2Proof

/-- The wire of `color32_i` that output wire `k` copies (the bit map of 40_convert.md R58). -/
def wireSource (k : Nat) : Nat :=
  if k < 5 then k + 19 else if k < 11 then k + 5 else k - 8

/-- A settled state: every output wire carries its input wire (40_convert.md R58, 70_reset_and_hazards.md R97). -/
def Settled (s : Machine.State) : Prop :=
  ∀ k, k < 16 → s.color16_o.getLsbD k = s.color32_i.getLsbD (wireSource k)

/-- A step that is safe: it answers a settled state and leaves the input alone (60_exceptions.md R92). -/
def SafeStep (s : Machine.State) : Prop :=
  ∃ t, Machine.step s = .next t ∧ Settled t ∧ t.color32_i = s.color32_i

/-- Any implementation of the block, whatever is inside it: how it answers one settled input word, from whatever it
holds inside. It may hold something from one evaluation to the next, and it may do more than drive `color16_o`
(41_strategies.md R78 constrains only what is seen from outside). -/
structure Implementation where
  /-- What it holds inside; not observable, not constrained (41_strategies.md R78). -/
  Hidden : Type
  /-- What it can do that is seen from outside, other than driving `color16_o`. -/
  Effect : Type
  /-- What it holds at power-up. -/
  start : Hidden
  /-- One evaluation: what it holds afterwards, the settled `color16_o`, and its other observable effects. -/
  respond : Hidden → Packed32Color → Hidden × Packed16Color × List Effect

/-- What an implementation holds after a list of inputs. -/
def Implementation.after (impl : Implementation) : List Packed32Color → impl.Hidden → impl.Hidden
  | [], h => h
  | c :: cs, h => Implementation.after impl cs (impl.respond h c).1

/-- All that is seen of an implementation over a list of inputs: its outputs and its other effects, in order. -/
def Implementation.observe (impl : Implementation) :
    List Packed32Color → impl.Hidden → List Packed16Color × List impl.Effect
  | [], _ => ([], [])
  | c :: cs, h =>
      let now := impl.respond h c
      let later := Implementation.observe impl cs now.1
      (now.2.1 :: later.1, now.2.2 ++ later.2)

/-- A conforming implementation: for every input, whatever came before it, its settled output is `CONVERT` of that
input and it has no other observable effect (41_strategies.md R78; 40_convert.md R47, R53). -/
def Conforms (impl : Implementation) : Prop :=
  ∀ (before : List Packed32Color) (c : Packed32Color),
    (impl.respond (impl.after before impl.start) c).2 = (Machine.convert c, [])

/-- An implementation that is a function of its input: it holds nothing and does nothing else. -/
def Implementation.ofFunction (f : Packed32Color → Packed16Color) : Implementation where
  Hidden := Unit
  Effect := Empty
  start := ()
  respond := fun _ c => ((), f c, [])

/-- The model's own block as an implementation, its ports as what it holds; it does nothing but drive `color16_o`. -/
def Implementation.ofBlock : Implementation where
  Hidden := Machine.State
  Effect := Empty
  start := Machine.State.reset
  respond := fun s c => (Machine.settle (s.drive c), (Machine.settle (s.drive c)).color16_o, [])

end Sys2Proof
end

