-- ==== Sys2Proof/Certificates/Slice0/Obligations.lean ====
section
/-! DEFINITION. The statements for the provers. Each docstring names the rule of spec/ it formalises. -/

open Sys2Proof Sys2Proof.Machine

/-- 40_convert.md R47: the evaluation of every word, its corner cases and its worked example. No flag, no exception:
the answer is a next state, and only `color16_o` is written. -/
def Obligations.StepEvaluatesConvert : Prop :=
  (∀ s : State,
    let r8 := s.color32_i.extractLsb' 0 8
    let g8 := s.color32_i.extractLsb' 8 8
    let b8 := s.color32_i.extractLsb' 16 8
    ∃ t, step s = .next t ∧ t.color32_i = s.color32_i ∧ t.color16_o = convert s.color32_i ∧
      t.color16_o = (r8 >>> 3).setWidth 5 ++ (g8 >>> 2).setWidth 6 ++ (b8 >>> 3).setWidth 5 ∧
      t.color16_o.toNat = r8.toNat / 8 * 2048 + g8.toNat / 4 * 32 + b8.toNat / 8 ∧
      (r8.toNat < 8 → t.color16_o.extractLsb' 11 5 = 0#5) ∧
      (g8.toNat < 4 → t.color16_o.extractLsb' 5 6 = 0#6) ∧
      (b8.toNat < 8 → t.color16_o.extractLsb' 0 5 = 0#5) ∧
      (r8 = 0xF8#8 ∨ r8 = 0xFF#8 → t.color16_o.extractLsb' 11 5 = 31#5)) ∧
  convert 0x00000000#32 = 0x0000#16 ∧ convert 0xFFFFFFFF#32 = 0xFFFF#16 ∧ convert 0x00070307#32 = 0x0000#16 ∧
  convert 0xFF000000#32 = 0x0000#16 ∧ convert 0xDDCCBBAA#32 = 0xADD9#16

/-- `CONVERT` on its own operands completes, only `color16_o` is written (40_convert.md R47, R53), and its result is
the concatenation, the OR of the shifted fields and their sum (30_encoding.md R38). That exec takes the instruction's
own operands, also where another word stands on `color32_i`, is the MODEL's choice (assumption 14). -/
def Obligations.ExecConvertCompletesWithPackedFields : Prop :=
  ∀ (a b g r : Byte) (s : State),
    let r5 := (r >>> 3).setWidth 5
    let g6 := (g >>> 2).setWidth 6
    let b5 := (b >>> 3).setWidth 5
    exec (.convert a b g r) s = .next { color32_i := s.color32_i, color16_o := r5 ++ g6 ++ b5 } ∧
    r5 ++ g6 ++ b5 = (r5.setWidth 16 <<< 11) ||| (g6.setWidth 16 <<< 5) ||| b5.setWidth 16 ∧
    r5 ++ g6 ++ b5 = (r5.setWidth 16 <<< 11) + (g6.setWidth 16 <<< 5) + b5.setWidth 16

/-- When the bytes on the input port decode to a well-formed instruction, the step is exec of it. There is no
program counter and no fetch to add (10_state.md R10). -/
def Obligations.StepRunsTheDecodedInstruction : Prop :=
  ∀ (s : State) (i : Instr),
    decode (laneBytes s.color32_i) = .ok i → i.wellFormed = true → step s = exec i s

/-- 60_exceptions.md R92: a step only ever answers a next state, the decoder has no invalid verdict, and only the
boundary refuses, exactly what is not 32 binary levels. -/
def Obligations.StepOnlyAnswersNext : Prop :=
  (∀ s : State, ∃ t, step s = .next t ∧ t.color16_o = convert s.color32_i ∧ t.color32_i = s.color32_i) ∧
  (∀ (s : State) (r : Fault), step s ≠ .fault r) ∧
  (∀ (s : State) (r : Refusal), step s ≠ .refused r) ∧
  (∀ w : Packed32Color, ∃ i, decode (laneBytes w) = .ok i) ∧
  (∀ (levels : List Level) (s : State),
    (∃ r, driveLevels levels s = .refused r) ↔
      (levels.length ≠ 32 ∨ Level.x ∈ levels ∨ Level.z ∈ levels))

/-- The exception set is empty (60_exceptions.md R79): no instruction, on any operands, in any state, stops, and no
sequence of inputs does (R91). -/
def Obligations.NoInstructionAndNoSequenceStops : Prop :=
  IsEmpty Fault ∧ (∀ (i : Instr) (s : State), ∃ t, exec i s = .next t) ∧
  (∀ (cs : List Packed32Color) (s : State), ∃ t ys, present cs s = .next (t, ys) ∧ ys.length = cs.length)

/-- 40_convert.md R54: the same word gives the same output whatever came before it and whichever instance
performs it. -/
def Obligations.SameWordSameOutputWhateverCameBefore : Prop :=
  ∀ (x : Packed32Color) (before before' : List Packed32Color) (s s' : State),
    ∃ t t' ys ys', present (before ++ [x]) s = .next (t, ys) ∧ present (before' ++ [x]) s' = .next (t', ys') ∧
      t = t' ∧ ys.getLast? = some (convert x) ∧ ys'.getLast? = some (convert x)

/-- No hidden input (10_state.md R17): two states with the same input word step alike, whatever stands on their
outputs. -/
def Obligations.StepReadsOnlyTheInputPort : Prop :=
  ∀ s s' : State, s.color32_i = s'.color32_i → step s = step s'

/-- Every step, from every state, answers a settled state, each output wire a copy of its input wire
(40_convert.md R58, 10_state.md R14); the settled states are exactly the ones a step leaves as they are; and so it
stays along every run. It asks nothing of the state before, so Settled is in particular kept. -/
def Obligations.EveryStepSettlesAndKeepsSettled : Prop :=
  (∀ s t : State, step s = .next t → Settled t ∧ t.color32_i = s.color32_i) ∧
  (∀ s : State, Settled s ↔ step s = .next s) ∧
  (∀ (k : Nat) (s : State),
    ∃ t, Host.Core.run Sys2Proof.core (k + 1) s = .next t ∧ Settled t ∧ t.color32_i = s.color32_i)

/-- The state after reset is settled (10_state.md R19), so the invariant of every step holds at it. -/
def Obligations.ResetIsSettled : Prop :=
  Settled State.reset ∧ State.reset.color16_o = convert State.reset.color32_i

/-- The MODEL's choice (assumption 2, DESIGN CHOICE): the input port carries zero after reset, and the output the
zero that 10_state.md R19 then gives it. -/
def Obligations.ResetPortsAreZeroByChoice : Prop :=
  State.reset = { color32_i := 0x00000000#32, color16_o := 0x0000#16 }

/-- 70_reset_and_hazards.md R95: the first evaluation after power-up obeys R47 like every later one. -/
def Obligations.FirstEvaluationIsLikeEveryLaterOne : Prop :=
  ∀ (c : Packed32Color) (s : State),
    evaluate c State.reset = .next { color32_i := c, color16_o := convert c } ∧
    evaluate c s = evaluate c State.reset

/-- Presenting an encoded instruction to the input port makes the next step run exactly it (30_encoding.md R39). That
presenting changes `color32_i` alone and leaves the old `color16_o` standing until that step is the MODEL's choice
(assumption 5). -/
def Obligations.PresentedInstructionRunsNext : Prop :=
  ∀ (s : State) (i : Instr),
    (s.withFetchWord 32 (encode i).toNat).color32_i = encode i ∧
    (s.withFetchWord 32 (encode i).toNat).color16_o = s.color16_o ∧
    step (s.withFetchWord 32 (encode i).toNat) = exec i (s.withFetchWord 32 (encode i).toNat)

/-- Decode and encode agree, in both directions, for every instruction, as words, as bytes and as table words. -/
def Obligations.DecodeAndEncodeAgree : Prop :=
  (∀ i : Instr, i.wellFormed = true →
    decodeWord (encode i) = i ∧ decode (encodeBytes i) = .ok i ∧ decodeTableWord 32 (encode i).toNat = some i) ∧
  (∀ w : Packed32Color, encode (decodeWord w) = w) ∧
  (∀ (bytes : List Byte) (i : Instr), decode bytes = .ok i → encodeBytes i = bytes) ∧
  (∀ i j : Instr, encodeBytes i = encodeBytes j → i = j)

/-- Exactly the runs of four bytes decode. That a word is 32 bits with no shorter or longer form, and that none is
invalid, is 30_encoding.md R36, R43, R40; that a decoder over bytes exists and rejects any other number of them by the
name `wrongWidth`, with that number, is the MODEL's choice (assumption 13). -/
def Obligations.ExactlyFourBytesDecode : Prop :=
  ∀ bytes : List Byte,
    ((∃ i, decode bytes = .ok i) ↔ bytes.length = 4) ∧
    (bytes.length ≠ 4 → decode bytes = .error (.wrongWidth bytes.length))

/-- 30_encoding.md R39: every word selects `CONVERT`, and nothing else can be selected. -/
def Obligations.EveryWordSelectsConvert : Prop :=
  (∀ w : Packed32Color, w &&& 0x00000000#32 = 0x00000000#32 ∧
    decode (laneBytes w) =
      .ok (.convert (w.extractLsb' 24 8) (w.extractLsb' 16 8) (w.extractLsb' 8 8) (w.extractLsb' 0 8))) ∧
  (∀ i : Instr, ∃ a b g r, i = .convert a b g r)

/-- Words written out from the format of 30_encoding.md R34. -/
def Obligations.SpelledOutWordsDecode : Prop :=
  decodeTableWord 32 0b11011101110011001011101110101010 = some (.convert 0xDD#8 0xCC#8 0xBB#8 0xAA#8) ∧
  decodeTableWord 32 0x000000FF = some (.convert 0x00#8 0x00#8 0x00#8 0xFF#8) ∧
  decodeTableWord 32 0xFF000000 = some (.convert 0xFF#8 0x00#8 0x00#8 0x00#8) ∧
  decode [0x12#8, 0x34#8, 0x56#8, 0x78#8] = .ok (.convert 0x78#8 0x56#8 0x34#8 0x12#8)

/-- The two spellings of a listing line denote the same word, its bytes stand RR GG BB AA (30_encoding.md R45), and a
listing has the words of its lines, in the order presented. That a line with an operand missing or too wide denotes
no word, where R46 would let a tool pick an alpha, is the MODEL's choice (assumption 17). -/
def Obligations.ListingSpellingsAgree : Prop :=
  (∀ l : ListingLine, (∃ w, l.toWord = some w) ↔ l.wellFormed = true) ∧
  (∀ a b g r : Byte,
    (ListingLine.tuple (some r.toNat) (some g.toNat) (some b.toNat) (some a.toNat)).toWord =
        some (wordOfChannels a b g r) ∧
    (ListingLine.word (r.toNat + g.toNat * 2 ^ 8 + b.toNat * 2 ^ 16 + a.toNat * 2 ^ 24)).toWord =
        some (wordOfChannels a b g r) ∧
    laneBytes (wordOfChannels a b g r) = [r, g, b, a]) ∧
  (∀ ls : Listing, (∃ ws, ls.toWords = some ws) ↔ ∀ l ∈ ls, l.wellFormed = true) ∧
  (∀ (ls : Listing) (ws : List Packed32Color), ls.toWords = some ws →
    ws.length = ls.length ∧ ∀ (k : Nat) (l : ListingLine), ls[k]? = some l → ws[k]? = l.toWord)

/-- 20_memory.md R20: byte k is bits [8k+7:8k]; offsets 0 to 3 are Red, Green, Blue, Alpha. -/
def Obligations.ByteLanesAreLittleEndian : Prop :=
  (∀ (v : Packed32Color) (k j : Nat), k < 4 → j < 8 → (byteLane v k).getLsbD j = v.getLsbD (8 * k + j)) ∧
  (∀ v : Packed32Color,
    (extract v).r8 = v.extractLsb' 0 8 ∧ (extract v).g8 = v.extractLsb' 8 8 ∧
    (extract v).b8 = v.extractLsb' 16 8 ∧ (extract v).a8 = v.extractLsb' 24 8) ∧
  wordOfChannels 0xDD#8 0xCC#8 0xBB#8 0xAA#8 = 0xDDCCBBAA#32

/-- The integer view, the record view and the view as two halves are one value (20_memory.md R22). -/
def Obligations.RecordAndHalfwordViewsAgree : Prop :=
  ∀ a b g r : Byte,
    (wordOfChannels a b g r).toNat = r.toNat + g.toNat * 2 ^ 8 + b.toNat * 2 ^ 16 + a.toNat * 2 ^ 24 ∧
    (wordOfChannels a b g r).extractLsb' 0 16 = g ++ r ∧ (wordOfChannels a b g r).extractLsb' 16 16 = a ++ b ∧
    extract (wordOfChannels a b g r) = { r8 := r, g8 := g, b8 := b, a8 := a }

/-- 40_convert.md R48: EXTRACT by slices and by shift and mask; nothing is lost. -/
def Obligations.ExtractStageLosesNothing : Prop :=
  (∀ c : Packed32Color,
    (extract c).r8 = ((c >>> 0) &&& 0xFF#32).setWidth 8 ∧ (extract c).r8 = c.extractLsb' 0 8 ∧
    (extract c).g8 = ((c >>> 8) &&& 0xFF#32).setWidth 8 ∧ (extract c).g8 = c.extractLsb' 8 8 ∧
    (extract c).b8 = ((c >>> 16) &&& 0xFF#32).setWidth 8 ∧ (extract c).b8 = c.extractLsb' 16 8 ∧
    (extract c).a8 = ((c >>> 24) &&& 0xFF#32).setWidth 8 ∧ (extract c).a8 = c.extractLsb' 24 8 ∧
    c.toNat = (extract c).r8.toNat + (extract c).g8.toNat * 2 ^ 8 + (extract c).b8.toNat * 2 ^ 16
      + (extract c).a8.toNat * 2 ^ 24) ∧
  Function.Injective extract ∧
  extract 0xDDCCBBAA#32 = { r8 := 0xAA#8, g8 := 0xBB#8, b8 := 0xCC#8, a8 := 0xDD#8 }

/-- 40_convert.md R49: TRUNCATE by shift, by slice and by floor; what is discarded is not looked at. -/
def Obligations.TruncateStageDropsLowBits : Prop :=
  (∀ r8 g8 b8 : Byte,
    (truncate r8 g8 b8).r5 = (r8 >>> 3).setWidth 5 ∧ (truncate r8 g8 b8).r5 = r8.extractLsb' 3 5 ∧
    (truncate r8 g8 b8).r5.toNat = r8.toNat / 8 ∧
    (truncate r8 g8 b8).g6 = (g8 >>> 2).setWidth 6 ∧ (truncate r8 g8 b8).g6 = g8.extractLsb' 2 6 ∧
    (truncate r8 g8 b8).g6.toNat = g8.toNat / 4 ∧
    (truncate r8 g8 b8).b5 = (b8 >>> 3).setWidth 5 ∧ (truncate r8 g8 b8).b5 = b8.extractLsb' 3 5 ∧
    (truncate r8 g8 b8).b5.toNat = b8.toNat / 8) ∧
  (∀ (r8 g8 b8 : Byte) (r g b : Nat), r < 8 → g < 4 → b < 8 →
    truncate ((r8 >>> 3 <<< 3) ||| BitVec.ofNat 8 r) ((g8 >>> 2 <<< 2) ||| BitVec.ofNat 8 g)
      ((b8 >>> 3 <<< 3) ||| BitVec.ofNat 8 b) = truncate r8 g8 b8) ∧
  truncate 0#8 0#8 0#8 = { r5 := 0#5, g6 := 0#6, b5 := 0#5 } ∧
  truncate 255#8 255#8 255#8 = { r5 := 31#5, g6 := 63#6, b5 := 31#5 } ∧
  truncate 7#8 3#8 7#8 = { r5 := 0#5, g6 := 0#6, b5 := 0#5 } ∧
  truncate 8#8 4#8 8#8 = { r5 := 1#5, g6 := 1#6, b5 := 1#5 } ∧
  truncate 0xAA#8 0xBB#8 0xCC#8 = { r5 := 21#5, g6 := 46#6, b5 := 25#5 }

/-- 40_convert.md R50: PACK as concatenation, OR, XOR, sum and number; a bijection; `CONVERT` is the three stages. -/
def Obligations.PackStageIsBijective : Prop :=
  (∀ f : Fields,
    pack f = f.r5 ++ f.g6 ++ f.b5 ∧
    pack f = (f.r5.setWidth 16 <<< 11) ||| (f.g6.setWidth 16 <<< 5) ||| f.b5.setWidth 16 ∧
    pack f = (f.r5.setWidth 16 <<< 11) ^^^ (f.g6.setWidth 16 <<< 5) ^^^ f.b5.setWidth 16 ∧
    pack f = (f.r5.setWidth 16 <<< 11) + (f.g6.setWidth 16 <<< 5) + f.b5.setWidth 16 ∧
    (pack f).toNat = f.r5.toNat * 2048 + f.g6.toNat * 32 + f.b5.toNat) ∧
  Function.Bijective pack ∧
  pack { r5 := 21#5, g6 := 46#6, b5 := 25#5 } = 0xADD9#16 ∧
  (∀ c : Packed32Color, convert c = pack (truncate (extract c).r8 (extract c).g8 (extract c).b8))

/-- 40_convert.md R55: alpha never influences the output. -/
def Obligations.AlphaNeverReachesTheOutput : Prop :=
  (∀ (x : Packed32Color) (a : Byte), convert (a ++ x.extractLsb' 0 24) = convert x) ∧
  (∀ x : Packed32Color, convert x = convert (x &&& 0x00FFFFFF#32)) ∧
  convert 0x00000000#32 = 0x0000#16 ∧ convert 0xFF000000#32 = 0x0000#16

/-- 40_convert.md R56: the channel truncation law, and that it alone characterises `CONVERT`. -/
def Obligations.ChannelTruncationLawCharacterisesConvert : Prop :=
  ∀ f : Packed32Color → Packed16Color,
    (∀ x : Packed32Color,
      ((f x).extractLsb' 11 5).setWidth 8 = x.extractLsb' 0 8 >>> 3 ∧
      ((f x).extractLsb' 5 6).setWidth 8 = x.extractLsb' 8 8 >>> 2 ∧
      ((f x).extractLsb' 0 5).setWidth 8 = x.extractLsb' 16 8 >>> 3) ↔ f = convert

/-- The packing can neither overflow nor carry, and what is lost is exactly the remainders (40_convert.md R57). -/
def Obligations.PackingNeverOverflowsOrCarries : Prop :=
  (∀ f : Fields,
    (f.r5.setWidth 16 <<< 11).toNat = f.r5.toNat * 2048 ∧ f.r5.toNat * 2048 ≤ 0xF800 ∧
    (f.g6.setWidth 16 <<< 5).toNat = f.g6.toNat * 32 ∧ f.g6.toNat * 32 ≤ 0x07E0 ∧
    (f.r5.setWidth 16 <<< 11) &&& (f.g6.setWidth 16 <<< 5) = 0#16 ∧
    (f.r5.setWidth 16 <<< 11) &&& f.b5.setWidth 16 = 0#16 ∧
    (f.g6.setWidth 16 <<< 5) &&& f.b5.setWidth 16 = 0#16 ∧
    f.r5.toNat * 2048 + f.g6.toNat * 32 + f.b5.toNat ≤ 65535) ∧
  (∀ c : Packed32Color,
    (c.extractLsb' 0 8).toNat = (convert c).toNat / 2048 * 8 + (c.extractLsb' 0 3).toNat ∧
    (c.extractLsb' 8 8).toNat = (convert c).toNat / 32 % 64 * 4 + (c.extractLsb' 8 2).toNat ∧
    (c.extractLsb' 16 8).toNat = (convert c).toNat % 32 * 8 + (c.extractLsb' 16 3).toNat)

/-- 40_convert.md R58: the bit map, the used and the dropped bits, the mask form. -/
def Obligations.OutputBitsAreCopiesOfInputBits : Prop :=
  (∀ (c : Packed32Color) (k : Nat), k < 16 → (convert c).getLsbD k = c.getLsbD (wireSource k)) ∧
  (∀ c : Packed32Color,
    (convert c).extractLsb' 11 5 = c.extractLsb' 3 5 ∧ (convert c).extractLsb' 5 6 = c.extractLsb' 10 6 ∧
    (convert c).extractLsb' 0 5 = c.extractLsb' 19 5) ∧
  (∀ j : Nat, j < 32 →
    (Config.droppedInputMask.getLsbD j = true ↔ j ≤ 2 ∨ (8 ≤ j ∧ j ≤ 9) ∨ (16 ≤ j ∧ j ≤ 18) ∨ 24 ≤ j) ∧
    (Config.usedInputMask.getLsbD j = true ↔ ∃ k, k < 16 ∧ wireSource k = j) ∧
    Config.usedInputMask.getLsbD j = !Config.droppedInputMask.getLsbD j) ∧
  (∀ x : Packed32Color, convert x = convert (x &&& 0x00F8FCF8#32) ∧
    convert x = (((x &&& 0x000000F8#32) <<< 8) ||| ((x &&& 0x0000FC00#32) >>> 5)
      ||| ((x &&& 0x00F80000#32) >>> 19)).setWidth 16)

/-- 40_convert.md R59: each output field depends on one input channel only. -/
def Obligations.EachFieldDependsOnOneChannel : Prop :=
  ∀ x x' : Packed32Color,
    (x.extractLsb' 0 8 = x'.extractLsb' 0 8 → (convert x).extractLsb' 11 5 = (convert x').extractLsb' 11 5) ∧
    (x.extractLsb' 8 8 = x'.extractLsb' 8 8 → (convert x).extractLsb' 5 6 = (convert x').extractLsb' 5 6) ∧
    (x.extractLsb' 16 8 = x'.extractLsb' 16 8 → (convert x).extractLsb' 0 5 = (convert x').extractLsb' 0 5)

/-- 40_convert.md R60: onto by an explicit preimage, 2^16 preimages each, alike exactly on the used bits. -/
def Obligations.EveryOutputHas65536Preimages : Prop :=
  (∀ y : Packed16Color,
    convert (((y.extractLsb' 11 5).setWidth 32 <<< 3) ||| ((y.extractLsb' 5 6).setWidth 32 <<< 10)
      ||| ((y.extractLsb' 0 5).setWidth 32 <<< 19)) = y) ∧
  (∀ y : Packed16Color, Nat.card { x : Packed32Color // convert x = y } = 2 ^ 16) ∧
  (∀ x x' : Packed32Color, convert x = convert x' ↔ x &&& 0x00F8FCF8#32 = x' &&& 0x00F8FCF8#32)

/-- 40_convert.md R61: each field is a non-decreasing step function of its channel, with its bucket edges. -/
def Obligations.FieldsAreMonotoneStepFunctions : Prop :=
  (∀ v v' g b : Byte, v ≤ v' →
    (truncate v g b).r5 ≤ (truncate v' g b).r5 ∧ (truncate b v g).g6 ≤ (truncate b v' g).g6 ∧
    (truncate g b v).b5 ≤ (truncate g b v').b5) ∧
  (∀ (v g b : Byte), v.toNat < 255 →
    (truncate (v + 1#8) g b).r5.toNat = (truncate v g b).r5.toNat + (if 8 ∣ v.toNat + 1 then 1 else 0) ∧
    (truncate b (v + 1#8) g).g6.toNat = (truncate b v g).g6.toNat + (if 4 ∣ v.toNat + 1 then 1 else 0) ∧
    (truncate g b (v + 1#8)).b5.toNat = (truncate g b v).b5.toNat + (if 8 ∣ v.toNat + 1 then 1 else 0)) ∧
  (∀ v : Byte, ∀ k : Nat,
    ((truncate v v v).r5.toNat = k ↔ 8 * k ≤ v.toNat ∧ v.toNat ≤ 8 * k + 7) ∧
    ((truncate v v v).b5.toNat = k ↔ 8 * k ≤ v.toNat ∧ v.toNat ≤ 8 * k + 7) ∧
    ((truncate v v v).g6.toNat = k ↔ 4 * k ≤ v.toNat ∧ v.toNat ≤ 4 * k + 3)) ∧
  truncate 0xFF#8 0xFF#8 0xFF#8 = { r5 := 31#5, g6 := 63#6, b5 := 31#5 } ∧
  truncate 0#8 0#8 0#8 = { r5 := 0#5, g6 := 0#6, b5 := 0#5 } ∧
  truncate 0x80#8 0x80#8 0x80#8 = { r5 := 16#5, g6 := 32#6, b5 := 16#5 } ∧
  truncate 0x7F#8 0x7F#8 0x7F#8 = { r5 := 15#5, g6 := 31#6, b5 := 15#5 }

/-- The whole output is monotone in each channel (95_test_vectors.md Q7, from R61). -/
def Obligations.OutputIsMonotoneInEachChannel : Prop :=
  ∀ a b g r a' b' g' r' : Byte, b ≤ b' → g ≤ g' → r ≤ r' →
    convert (wordOfChannels a b g r) ≤ convert (wordOfChannels a' b' g' r')

/-- `CONVERT` commutes with OR and AND, and the walking-one table alone determines it among the functions that
commute with OR (95_test_vectors.md section 2.4 and Q5). -/
def Obligations.WalkingOnesDetermineConvert : Prop :=
  (∀ x x' : Packed32Color, convert (x ||| x') = convert x ||| convert x' ∧
    convert (x &&& x') = convert x &&& convert x') ∧
  (∀ f : Packed32Color → Packed16Color,
    (∀ x x', f (x ||| x') = f x ||| f x') →
    (∀ k, k < 16 → f (1#32 <<< wireSource k) = 1#16 <<< k) →
    (∀ j, j < 32 → (∀ k, k < 16 → wireSource k ≠ j) → f (1#32 <<< j) = 0#16) →
    f = convert)

/-- 41_strategies.md R72: the four documented formulations and `CONVERT` agree on every input, pairwise as
`StrategiesAgree` says and so each with `CONVERT`. -/
def Obligations.FourStrategiesAgreeWithConvert : Prop :=
  ∀ x : Packed32Color, StrategiesAgree x ∧
    strategy1 x = convert x ∧ strategy2 x = convert x ∧ strategy3 x = convert x ∧ strategy4 x = convert x

/-- 41_strategies.md R75 and R76: the wiring form, which every strategy reduces to, and the mask-then-shift form. -/
def Obligations.WiringAndMaskFormsAgree : Prop :=
  (∀ x : Packed32Color,
    wiringForm x = x.extractLsb' 3 5 ++ x.extractLsb' 10 6 ++ x.extractLsb' 19 5 ∧
    strategy1 x = wiringForm x ∧ strategy2 x = wiringForm x ∧ strategy3 x = wiringForm x ∧
    strategy4 x = wiringForm x ∧ convert x = wiringForm x ∧
    maskForm x = (((x &&& 0x000000F8#32) <<< 8) ||| ((x &&& 0x0000FC00#32) >>> 5)
      ||| ((x &&& 0x00F80000#32) >>> 19)).setWidth 16 ∧
    convert x = maskForm x) ∧
  maskForm 0xDDCCBBAA#32 = 0xADD9#16

/-- 41_strategies.md R78: an implementation, whatever it holds inside, conforms if and only if over every list of
inputs all that is seen of it is what the block answers and nothing else; a function conforms if and only if putting
it in the place of `CONVERT` leaves every step as it is; the block itself and every documented formulation conform. -/
def Obligations.ConformingMeansSameObservations : Prop :=
  (∀ impl : Implementation,
    Conforms impl ↔ ∀ (cs : List Packed32Color) (s : State),
      ∃ t, present cs s = .next (t, (impl.observe cs impl.start).1) ∧ (impl.observe cs impl.start).2 = []) ∧
  (∀ f : Packed32Color → Packed16Color,
    Conforms (.ofFunction f) ↔
      ∀ s : State, step s = .next { color32_i := s.color32_i, color16_o := f s.color32_i }) ∧
  Conforms .ofBlock ∧
  ∀ f ∈ [strategy1, strategy2, strategy3, strategy4, wiringForm, maskForm, convert], Conforms (.ofFunction f)

/-- What conforming rules out (41_strategies.md R78; 40_convert.md R53, R54): an effect at any input after any
history, and an output that a history can change. -/
def Obligations.ConformingExcludesEffectsAndHistory : Prop :=
  ∀ impl : Implementation, Conforms impl →
    (∀ before c, (impl.respond (impl.after before impl.start) c).2.2 = []) ∧
    (∀ before before' c, (impl.respond (impl.after before impl.start) c).2 =
      (impl.respond (impl.after before' impl.start) c).2) ∧
    (∀ before c c', c &&& 0x00F8FCF8#32 = c' &&& 0x00F8FCF8#32 →
      (impl.respond (impl.after before impl.start) c).2.1 = (impl.respond (impl.after before impl.start) c').2.1)

/-- 30_encoding.md R42: every result value occurs, and black has more than one source. -/
def Obligations.EveryResultValueOccurs : Prop :=
  (∀ (y : Packed16Color) (s : State), ∃ c t, evaluate c s = .next t ∧ t.color16_o = y) ∧
  (∀ s : State, ∃ t t', evaluate 0xFF000000#32 s = .next t ∧ evaluate 0x00000000#32 s = .next t' ∧
    t.color16_o = 0x0000#16 ∧ t'.color16_o = 0x0000#16)

/-- 30_encoding.md R41: the sixteen dropped bits of the input, [31:24], [18:16], [9:8] and [2:0], may be anything: a
word that agrees with the one on the port in all other bits gives the same output. -/
def Obligations.DroppedBitsAreDontCare : Prop :=
  ∀ (s : State) (c : Packed32Color),
    (∀ j, j < 32 → ¬ (24 ≤ j ∨ (16 ≤ j ∧ j ≤ 18) ∨ (8 ≤ j ∧ j ≤ 9) ∨ j ≤ 2) →
      c.getLsbD j = s.color32_i.getLsbD j) →
    ∃ t t', step s = .next t ∧ step (s.drive c) = .next t' ∧ t'.color16_o = t.color16_o

/-- 40_convert.md R62: a sequence of inputs gives the sequence of their conversions, and nothing else changes. -/
def Obligations.SequenceOfEvaluationsIsTheMap : Prop :=
  ∀ (cs : List Packed32Color) (s : State),
    ∃ t, present cs s = .next (t, cs.map convert) ∧ (cs = [] → t = s) ∧
      ∀ c, cs.getLast? = some c → t = { color32_i := c, color16_o := convert c }

/-- Users that time-share one instance each see the conversions of their own words, so any interleaving that keeps
each user's order gives each user the same (60_exceptions.md R90, 95_test_vectors.md P5). -/
def Obligations.TimeSharingUsersDoNotInterfere : Prop :=
  (∀ (xs : List (Nat × Packed32Color)) (s : State),
    ∃ t ys, presentShared xs s = .next (t, ys) ∧ ∀ u, ofUser u ys = (ofUser u xs).map convert) ∧
  (∀ (xs xs' : List (Nat × Packed32Color)) (s s' : State), (∀ u, ofUser u xs = ofUser u xs') →
    ∃ t ys t' ys', presentShared xs s = .next (t, ys) ∧ presentShared xs' s' = .next (t', ys') ∧
      ∀ u, ofUser u ys = ofUser u ys')

/-- Instances on one board are independent: each ends as its own words alone make it (60_exceptions.md R90,
20_memory.md R30; the board is the MODEL's, assumption 16). -/
def Obligations.InstancesAreIndependent : Prop :=
  ∀ (ops : List (Nat × Packed32Color)) (board : List State),
    (runBoard ops board).length = board.length ∧
    ∀ (k : Nat) (s : State), board[k]? = some s →
      (ofUser k ops = [] → (runBoard ops board)[k]? = some s) ∧
      ∀ c, (ofUser k ops).getLast? = some c →
        (runBoard ops board)[k]? = some { color32_i := c, color16_o := convert c }

/-- 20_memory.md R26: reading has no effect; driving has none other than on `color16_o`, which the evaluation of the
word then drives; and the same word gives the same output wherever it stands among others. That `drive` alone leaves
the old `color16_o` standing until the evaluation is the MODEL's split of the two (assumption 5), and reading is said on
the MODEL's bench (assumptions 3 and 4). -/
def Obligations.ReadingAndDrivingHaveNoSideEffect : Prop :=
  (∀ (p : Config.Params) (b : Bench), Bench.act p .sample b = (b, [b.block.color16_o])) ∧
  (∀ (s : State) (c : Packed32Color), s.drive c = { color32_i := c, color16_o := s.color16_o } ∧
    step (s.drive c) = .next { color32_i := c, color16_o := convert c }) ∧
  (∀ (cs : List Packed32Color) (s : State) (x : Packed32Color), ∃ t ys, present cs s = .next (t, ys) ∧
    ∀ k : Nat, cs[k]? = some x → ys[k]? = some (convert x))

/-- Exactly 32 binary levels drive the input, and they drive the word they spell, wire 0 least significant; one driver
drives, none or several are refused (70_reset_and_hazards.md R104, 93_implementation_defined.md U1 and U4; the form of
the boundary is the MODEL's, assumption 11). -/
def Obligations.BoundaryAcceptsExactlyBinaryWords : Prop :=
  (∀ (w : Packed32Color) (s : State),
    driveLevels ((List.range 32).map (fun j => if w.getLsbD j then Level.one else Level.zero)) s
      = .next (s.drive w)) ∧
  (∀ (levels : List Level) (s : State),
    (∃ t, driveLevels levels s = .next t) ↔ levels.length = 32 ∧ Level.x ∉ levels ∧ Level.z ∉ levels) ∧
  (∀ (drivers : List Packed32Color) (s : State),
    (∃ t, driveBy drivers s = .next t) ↔ drivers.length = 1) ∧
  (∀ (w : Packed32Color) (s : State), driveBy [w] s = .next (s.drive w))

/-- An input held for T_PD is answered, whatever the bench did before, however the time is cut up and however often
the output is read or the same word is driven again meanwhile (70_reset_and_hazards.md R97; time in ticks is the
MODEL's, assumption 3). -/
def Obligations.HeldInputIsAnsweredAfterSettleTime : Prop :=
  ∀ (p : Config.Params) (b : Bench) (c : Packed32Color) (as : List BenchAction),
    (∀ a ∈ as, a = .drive c ∨ a = .sample ∨ ∃ dt, a = .wait dt) → p.tPd ≤ totalWait as →
    (Bench.run p (.drive c :: as) b).1.block = { color32_i := c, color16_o := convert c } ∧
    (Bench.run p (.drive c :: as ++ [.sample]) b).2.getLast? = some (convert c)

/-- Before T_PD has passed any value may stand on the output: the MODEL's free value (assumption 4), whichever it is;
the input and the time held are as the integrator made them (70_reset_and_hazards.md R98, entry U2). -/
def Obligations.UnsettledOutputIsTheFreeValue : Prop :=
  ∀ (p : Config.Params) (b : Bench) (c : Packed32Color) (dt : Nat), c ≠ b.block.color32_i → dt < p.tPd →
    (Bench.run p [.drive c, .sample, .wait dt, .sample] b).2 =
      [Config.unsettledOutput b.draws, Config.unsettledOutput (b.draws + 1)] ∧
    (Bench.run p [.drive c, .sample, .wait dt, .sample] b).1.block.color32_i = c ∧
    (Bench.run p [.drive c, .sample, .wait dt, .sample] b).1.held = dt

/-- Keeping the settle time, the block in time is the functional model: the samples are what `present` answers, for
every T_PD and from every bench (70_reset_and_hazards.md R97, R100; 40_convert.md R62; time in ticks is the MODEL's,
assumption 3). -/
def Obligations.DisciplinedBenchRefinesTheFunctionalModel : Prop :=
  ∀ (p : Config.Params) (cs : List Packed32Color) (b : Bench) (s : State),
    ∃ t, present cs s = .next (t, (Bench.run p (disciplined p cs) b).2) ∧
      (Bench.run p (disciplined p cs) b).2 = cs.map convert

/-- In a registered integration that meets its timing, the value captured at edge n+1 is `CONVERT` of the word
launched at edge n (70_reset_and_hazards.md R103; the wrapper is the MODEL's, assumption 15). -/
def Obligations.RegisteredWrapperDelaysByOneEdge : Prop :=
  ∀ (p : Config.Params) (setup period : Nat) (cs : List Packed32Color) (w : Registered),
    p.tPd + setup < period →
    (Registered.run p setup period cs w).2 = ((w.block.color32_i :: cs).take cs.length).map convert ∧
    (Registered.run p setup period cs w).1.draws = w.draws

/-- MemRead assembles the byte at the lowest address least significant: lane k of the word read is the byte at
address a + k (00_scope.md R8, 20_memory.md R20, R28). -/
def Obligations.MemReadLanesAreTheBytes : Prop :=
  ∀ (m : Memory) (a k : Nat), k < 4 →
    memRead m a 4 < 2 ^ 32 ∧ byteLane (BitVec.ofNat 32 (memRead m a 4)) k = Memory.read m (a + k)

/-- 20_memory.md R29: where the two bytes of a stored result stand in either order; every other byte reads as
before, and the memory keeps its canonical form. -/
def Obligations.StoreOrderPlacesResultBytes : Prop :=
  ∀ (m : Memory) (a : Nat) (y : Packed16Color), Memory.wf m = true →
    Memory.read (memWrite .little m a 2 y.toNat) a = y.extractLsb' 0 8 ∧
    y.extractLsb' 0 8 = (y.extractLsb' 5 6).extractLsb' 0 3 ++ y.extractLsb' 0 5 ∧
    Memory.read (memWrite .little m a 2 y.toNat) (a + 1) = y.extractLsb' 8 8 ∧
    y.extractLsb' 8 8 = y.extractLsb' 11 5 ++ (y.extractLsb' 5 6).extractLsb' 3 3 ∧
    Memory.read (memWrite .big m a 2 y.toNat) a = y.extractLsb' 8 8 ∧
    Memory.read (memWrite .big m a 2 y.toNat) (a + 1) = y.extractLsb' 0 8 ∧
    ∀ order : Config.StoreOrder, Memory.wf (memWrite order m a 2 y.toNat) = true ∧
      ∀ x, x ≠ a → x ≠ a + 1 → Memory.read (memWrite order m a 2 y.toNat) x = Memory.read m x

/-- The harness parameter OUT16_STORE_ORDER is little unless another is given: the spec's decision D5
(20_memory.md R29, 00_scope.md R6), taken into the MODEL's parameters (assumption 8). -/
def Obligations.StoreOrderDefaultsToLittle : Prop :=
  ∀ tPd : Nat, ({ tPd := tPd } : Config.Params).storeOrder = .little

/-- ConvertBuffer over ranges the harness allows (20_memory.md R28 with R20, R29 and 40_convert.md R47): it stores the
conversion of every pixel that stood in memory BEFORE it ran, changes no other byte, keeps the canonical form, and the
block sees the words of the pixels one after another and ends at the last. That addresses have no top at which they
wrap is the MODEL's choice (assumption 9). -/
def Obligations.ConvertBufferConvertsEveryPixel : Prop :=
  (∀ (m : Memory) (a : Nat), memRead m a 4 = (Memory.read m a).toNat + (Memory.read m (a + 1)).toNat * 2 ^ 8
      + (Memory.read m (a + 2)).toNat * 2 ^ 16 + (Memory.read m (a + 3)).toNat * 2 ^ 24) ∧
  (∀ src dst n : Nat, rangesOk src dst n = true ↔ dst + 2 * n ≤ src ∨ src + 4 * n ≤ dst ∨ dst = src) ∧
  (∀ (order : Config.StoreOrder) (src dst n : Nat) (h : Harness),
    Memory.wf h.mem = true → rangesOk src dst n = true →
    let word := fun i => BitVec.ofNat 32 (memRead h.mem (src + 4 * i) 4)
    ∃ h', convertBuffer order src dst n h = .next h' ∧ Memory.wf h'.mem = true ∧
      (∀ i, i < n →
        [Memory.read h'.mem (dst + 2 * i), Memory.read h'.mem (dst + 2 * i + 1)]
          = storedBytes order 2 (convert (word i)).toNat) ∧
      (∀ x, x < dst ∨ dst + 2 * n ≤ x → Memory.read h'.mem x = Memory.read h.mem x) ∧
      (n = 0 → h'.block = h.block) ∧
      (∀ i, i < n → ∃ before after,
        convertPixels order src dst 0 i h = .next before ∧ convertPixel order src dst i before = .next after ∧
        evaluate (word i) before.block = .next after.block ∧
        after.block = { color32_i := word i, color16_o := convert (word i) } ∧
        convertPixels order src dst (i + 1) (n - (i + 1)) after = .next h') ∧
      present ((List.range n).map word) h.block = .next (h'.block, (List.range n).map (fun i => convert (word i))))

/-- At power-up, before T_PD has passed, any value stands on the output: the MODEL's free value, not a zero
(assumptions 2, 3 and 4; 10_state.md R19, 70_reset_and_hazards.md R98). Once the input of reset has been held for T_PD
the bench carries what R19 says. -/
def Obligations.PowerUpOutputIsFreeUntilSettled : Prop :=
  (∀ p : Config.Params, 0 < p.tPd →
    (Bench.run p [.sample] (Bench.start p)).2 = [Config.unsettledOutput 0] ∧ (Bench.start p).held = 0) ∧
  (∀ (p : Config.Params) (dt : Nat), p.tPd ≤ dt →
    (Bench.run p [.wait dt, .sample] (Bench.start p)).2 = [convert (Bench.start p).block.color32_i] ∧
    (Bench.run p [.wait dt] (Bench.start p)).1.block = State.reset)

/-- The MODEL's choice (assumption 13): a word of more than 32 bits, which is no input of the block (30_encoding.md
R36, 60_exceptions.md R92), is neither presented nor decoded; a narrower one is filled up with zeros for both. -/
def Obligations.OtherWidthsAreNotPresentedOrAreZeroFilled : Prop :=
  (∀ (s : State) (nbits w : Nat), 32 < nbits → s.withFetchWord nbits w = s ∧ decodeTableWord nbits w = none) ∧
  (∀ (s : State) (nbits w : Nat), nbits ≤ 32 →
    (s.withFetchWord nbits w).color32_i.toNat = w % 2 ^ nbits ∧
    decodeTableWord nbits w = some (decodeWord (s.withFetchWord nbits w).color32_i))
end

