-- ==== Sys2Proof/Laws/Operands.lean ====
section
/-! SUPPORT. What the operand functions do, as numbers and as slices: later proofs cite these and unfold nothing. -/

namespace Sys2Proof.Machine

theorem byteLane_getLsbD (c : Packed32Color) (k j : Nat) :
    (byteLane c k).getLsbD j = (decide (j < 8) && c.getLsbD (8 * k + j)) := by
  simp [byteLane]

theorem byteLane_toNat (c : Packed32Color) (k : Nat) :
    (byteLane c k).toNat = c.toNat / 2 ^ (8 * k) % 256 := by
  simp [byteLane, BitVec.extractLsb', Nat.shiftRight_eq_div_pow]

theorem wordOfChannels_toNat (a b g r : Byte) :
    (wordOfChannels a b g r).toNat = r.toNat + g.toNat * 2 ^ 8 + b.toNat * 2 ^ 16 + a.toNat * 2 ^ 24 := by
  have hb := b.isLt; have hg := g.isLt; have hr := r.isLt
  simp only [wordOfChannels, BitVec.toNat_append]
  rw [← Nat.shiftLeft_add_eq_or_of_lt hb, ← Nat.shiftLeft_add_eq_or_of_lt hg, ← Nat.shiftLeft_add_eq_or_of_lt hr]
  simp only [Nat.shiftLeft_eq]
  omega

theorem pack_toNat (f : Fields) :
    (pack f).toNat = f.r5.toNat * 2048 + f.g6.toNat * 32 + f.b5.toNat := by
  have hb := f.b5.isLt; have hg := f.g6.isLt
  simp only [pack, BitVec.toNat_append]
  rw [← Nat.shiftLeft_add_eq_or_of_lt hg, ← Nat.shiftLeft_add_eq_or_of_lt hb]
  simp only [Nat.shiftLeft_eq]
  omega

theorem truncate_r5_toNat (r8 g8 b8 : Byte) : (truncate r8 g8 b8).r5.toNat = r8.toNat / 8 := by
  have := r8.isLt
  simp [truncate, Nat.shiftRight_eq_div_pow]; omega

theorem truncate_g6_toNat (r8 g8 b8 : Byte) : (truncate r8 g8 b8).g6.toNat = g8.toNat / 4 := by
  have := g8.isLt
  simp [truncate, Nat.shiftRight_eq_div_pow]; omega

theorem truncate_b5_toNat (r8 g8 b8 : Byte) : (truncate r8 g8 b8).b5.toNat = b8.toNat / 8 := by
  have := b8.isLt
  simp [truncate, Nat.shiftRight_eq_div_pow]; omega

/-- Everything `convert` computes, as a number. -/
theorem convert_toNat (c : Packed32Color) :
    (convert c).toNat = c.toNat % 256 / 8 * 2048 + c.toNat / 2 ^ 8 % 256 / 4 * 32 + c.toNat / 2 ^ 16 % 256 / 8 := by
  simp only [convert, extract, pack_toNat, truncate_r5_toNat, truncate_g6_toNat, truncate_b5_toNat, byteLane_toNat]
  simp

/-- EXTRACT loses nothing: the lanes give the word back. -/
@[simp] theorem wordOfChannels_lanes (c : Packed32Color) :
    wordOfChannels (byteLane c 3) (byteLane c 2) (byteLane c 1) (byteLane c 0) = c := by
  apply BitVec.eq_of_toNat_eq
  have := c.isLt
  simp only [wordOfChannels_toNat, byteLane_toNat]
  omega

/-- The four lanes of an assembled word. -/
theorem byteLane_wordOfChannels (a b g r : Byte) :
    byteLane (wordOfChannels a b g r) 0 = r ∧ byteLane (wordOfChannels a b g r) 1 = g ∧
      byteLane (wordOfChannels a b g r) 2 = b ∧ byteLane (wordOfChannels a b g r) 3 = a := by
  have ha := a.isLt; have hb := b.isLt; have hg := g.isLt; have hr := r.isLt
  refine ⟨?_, ?_, ?_, ?_⟩ <;> apply BitVec.eq_of_toNat_eq <;>
    simp only [wordOfChannels_toNat, byteLane_toNat] <;> omega

theorem truncate_eq_slices (r8 g8 b8 : Byte) :
    truncate r8 g8 b8 = { r5 := r8.extractLsb' 3 5, g6 := g8.extractLsb' 2 6, b5 := b8.extractLsb' 3 5 } := by
  simp only [truncate, Fields.mk.injEq]
  refine ⟨?_, ?_, ?_⟩ <;> ext i hi <;> simp

theorem bytesOfNat_length (n w : Nat) : (bytesOfNat n w).length = n := by
  induction n generalizing w with
  | zero => rfl
  | succ n ih => simp [bytesOfNat, ih]

end Sys2Proof.Machine
end

