-- ==== Sys2Proof/Laws/Memory.lean ====
section
/-! SUPPORT. The laws of the harness memory: reads after writes, and the canonical form kept by every operation. -/

namespace Sys2Proof.Machine

theorem Memory.wfFrom_mono {lo lo' : Nat} (hle : lo' ≤ lo) {m : Memory} (h : Memory.wfFrom lo m = true) :
    Memory.wfFrom lo' m = true := by
  cases m with
  | nil => rfl
  | cons c rest =>
    obtain ⟨b, u⟩ := c
    simp only [Memory.wfFrom, Bool.and_eq_true, decide_eq_true_eq] at h ⊢
    exact ⟨⟨by omega, h.1.2⟩, h.2⟩

theorem Memory.read_below {lo a : Nat} {m : Memory} (h : Memory.wfFrom lo m = true) (ha : a < lo) :
    Memory.read m a = Memory.poison := by
  cases m with
  | nil => rfl
  | cons c rest =>
    obtain ⟨b, u⟩ := c
    simp only [Memory.wfFrom, Bool.and_eq_true, decide_eq_true_eq] at h
    have h1 : a ≠ b := by omega
    have h2 : a < b := by omega
    simp only [Memory.read, if_neg h1, if_pos h2]

/-- A write keeps the canonical form above any bound that the address respects. -/
theorem Memory.wfFrom_write {lo : Nat} {m : Memory} {a : Nat} (v : Byte) (h : Memory.wfFrom lo m = true)
    (ha : lo ≤ a) : Memory.wfFrom lo (Memory.write m a v) = true := by
  induction m generalizing lo with
  | nil =>
    by_cases hv : v = Memory.poison <;> simp [Memory.write, Memory.wfFrom, hv, ha]
  | cons c rest ih =>
    obtain ⟨b, u⟩ := c
    have hw := h
    simp only [Memory.wfFrom, Bool.and_eq_true, decide_eq_true_eq] at h
    obtain ⟨⟨hlo, hu⟩, hrest⟩ := h
    by_cases hab : a < b
    · by_cases hv : v = Memory.poison
      · simpa [Memory.write, hab, hv] using hw
      · have : Memory.wfFrom (a + 1) ((b, u) :: rest) = true := by
          simp only [Memory.wfFrom, Bool.and_eq_true, decide_eq_true_eq]
          exact ⟨⟨by omega, hu⟩, hrest⟩
        simp only [Memory.write, if_pos hab, if_neg hv]
        rw [Memory.wfFrom]
        simp [ha, hv, this]
    · by_cases heq : a = b
      · by_cases hv : v = Memory.poison
        · simp only [Memory.write, if_neg hab, if_pos heq, if_pos hv]
          exact Memory.wfFrom_mono (by omega) hrest
        · simp only [Memory.write, if_neg hab, if_pos heq, if_neg hv]
          simp [Memory.wfFrom, hlo, hv, hrest]
      · simp only [Memory.write, if_neg hab, if_neg heq]
        have := ih hrest (by omega)
        simp [Memory.wfFrom, hlo, hu, this]

/-- A write keeps the canonical form. -/
theorem Memory.wf_write {m : Memory} (a : Nat) (v : Byte) (h : Memory.wf m = true) :
    Memory.wf (Memory.write m a v) = true :=
  Memory.wfFrom_write v h (Nat.zero_le a)

theorem Memory.read_write_from {lo : Nat} {m : Memory} {a : Nat} (v : Byte) (h : Memory.wfFrom lo m = true) :
    Memory.read (Memory.write m a v) a = v := by
  induction m generalizing lo with
  | nil => by_cases hv : v = Memory.poison <;> simp [Memory.write, Memory.read, hv]
  | cons c rest ih =>
    obtain ⟨b, u⟩ := c
    simp only [Memory.wfFrom, Bool.and_eq_true, decide_eq_true_eq] at h
    obtain ⟨-, hrest⟩ := h
    by_cases hab : a < b
    · have hne : a ≠ b := by omega
      by_cases hv : v = Memory.poison <;> simp [Memory.write, Memory.read, hab, hv, hne]
    · by_cases heq : a = b
      · subst heq
        by_cases hv : v = Memory.poison
        · simp only [Memory.write, if_neg hab, if_pos hv]
          rw [hv]; exact Memory.read_below hrest (Nat.lt_succ_self a)
        · simp [Memory.write, Memory.read, hv]
      · simp only [Memory.write, Memory.read, if_neg hab, if_neg heq]
        exact ih hrest

/-- A byte written reads back. -/
theorem Memory.read_write_same {m : Memory} (a : Nat) (v : Byte) (h : Memory.wf m = true) :
    Memory.read (Memory.write m a v) a = v :=
  Memory.read_write_from v h

theorem Memory.read_write_other_from {lo : Nat} {m : Memory} {a x : Nat} (v : Byte)
    (h : Memory.wfFrom lo m = true) (hx : x ≠ a) : Memory.read (Memory.write m a v) x = Memory.read m x := by
  induction m generalizing lo with
  | nil => by_cases hv : v = Memory.poison <;> simp [Memory.write, Memory.read, hv, hx]
  | cons c rest ih =>
    obtain ⟨b, u⟩ := c
    simp only [Memory.wfFrom, Bool.and_eq_true, decide_eq_true_eq] at h
    obtain ⟨-, hrest⟩ := h
    by_cases hab : a < b
    · by_cases hv : v = Memory.poison
      · simp [Memory.write, hab, hv]
      · simp only [Memory.write, if_pos hab, if_neg hv]
        rw [Memory.read, if_neg hx]
        by_cases hxa : x < a
        · have h1 : x ≠ b := by omega
          have h2 : x < b := by omega
          simp [Memory.read, hxa, h1, h2]
        · rw [if_neg hxa]
    · by_cases heq : a = b
      · subst heq
        by_cases hv : v = Memory.poison
        · simp only [Memory.write, if_neg hab, if_pos hv]
          by_cases hxa : x < a
          · simp [Memory.read, hx, hxa, Memory.read_below hrest (show x < a + 1 by omega)]
          · simp [Memory.read, hx, hxa]
        · simp [Memory.write, Memory.read, hv, hx]
      · simp only [Memory.write, Memory.read, if_neg hab, if_neg heq]
        rw [ih hrest]

/-- A write leaves every other byte alone. -/
theorem Memory.read_write_other {m : Memory} {a x : Nat} (v : Byte) (h : Memory.wf m = true) (hx : x ≠ a) :
    Memory.read (Memory.write m a v) x = Memory.read m x :=
  Memory.read_write_other_from v h hx

theorem Memory.wf_writeBytes {m : Memory} (a : Nat) (vs : List Byte) (h : Memory.wf m = true) :
    Memory.wf (Memory.writeBytes m a vs) = true := by
  induction vs generalizing m a with
  | nil => exact h
  | cons v vs ih => exact ih (a + 1) (Memory.wf_write a v h)

/-- Bytes outside a run of written bytes are left alone. -/
theorem Memory.read_writeBytes_outside {m : Memory} {a x : Nat} {vs : List Byte} (h : Memory.wf m = true)
    (hx : x < a ∨ a + vs.length ≤ x) : Memory.read (Memory.writeBytes m a vs) x = Memory.read m x := by
  induction vs generalizing m a with
  | nil => rfl
  | cons v vs ih =>
    simp only [List.length_cons] at hx
    rw [Memory.writeBytes, ih (Memory.wf_write a v h) (by omega), Memory.read_write_other v h (by omega)]

/-- A run of written bytes reads back. -/
theorem Memory.read_writeBytes_inside {m : Memory} {a k : Nat} {vs : List Byte} (h : Memory.wf m = true)
    (hk : k < vs.length) : Memory.read (Memory.writeBytes m a vs) (a + k) = vs[k] := by
  induction vs generalizing m a k with
  | nil => simp at hk
  | cons v vs ih =>
    cases k with
    | zero =>
      rw [Memory.writeBytes, Memory.read_writeBytes_outside (Memory.wf_write a v h) (by omega)]
      exact Memory.read_write_same a v h
    | succ k =>
      have := ih (a := a + 1) (Memory.wf_write a v h) (k := k) (by simpa using hk)
      rw [Memory.writeBytes, show a + (k + 1) = a + 1 + k by omega, this]
      rfl

theorem storedBytes_length (order : Config.StoreOrder) (n v : Nat) : (storedBytes order n v).length = n := by
  cases order <;> simp [storedBytes, bytesOfNat_length]

/-- MemWrite keeps the canonical form. -/
theorem Memory.wf_memWrite {m : Memory} (order : Config.StoreOrder) (a n v : Nat) (h : Memory.wf m = true) :
    Memory.wf (memWrite order m a n v) = true :=
  Memory.wf_writeBytes a _ h

end Sys2Proof.Machine
end

