-- ==== Sys2Proof/Laws/PerInstr.lean ====
section
/-! SUPPORT. Facts about every instruction as syntax, one lemma per constructor (LAWS.json). -/

namespace Sys2Proof.Laws.FourBytes

/-- Every instruction is well formed and takes exactly four bytes (30_encoding.md R36, R40). -/
def Statement (i : Instr) : Prop :=
  i.wellFormed = true ∧ (encodeBytes i).length = 4

theorem convert (a b g r : Byte) : Statement (.convert a b g r) := ⟨rfl, rfl⟩

end Sys2Proof.Laws.FourBytes
end

