-- ==== Sys2Proof/Laws/State.lean ====
section
/-! SUPPORT. One lemma per field per update of State, and what reset leaves. -/

namespace Sys2Proof.Machine

@[simp] theorem State.drive_color32_i (s : State) (c : Packed32Color) : (s.drive c).color32_i = c := rfl
@[simp] theorem State.drive_color16_o (s : State) (c : Packed32Color) : (s.drive c).color16_o = s.color16_o := rfl
@[simp] theorem State.driveColor16_color32_i (s : State) (v : Packed16Color) :
    (s.driveColor16 v).color32_i = s.color32_i := rfl
@[simp] theorem State.driveColor16_color16_o (s : State) (v : Packed16Color) :
    (s.driveColor16 v).color16_o = v := rfl
@[simp] theorem State.drive_drive (s : State) (c d : Packed32Color) : (s.drive c).drive d = s.drive d := rfl
@[simp] theorem State.driveColor16_driveColor16 (s : State) (v w : Packed16Color) :
    (s.driveColor16 v).driveColor16 w = s.driveColor16 w := rfl
@[simp] theorem State.drive_self (s : State) : s.drive s.color32_i = s := rfl

theorem State.ext_ports {s t : State} (hi : s.color32_i = t.color32_i) (ho : s.color16_o = t.color16_o) : s = t := by
  cases s; cases t; simp_all

end Sys2Proof.Machine
end

