-- ==== Sys2Proof/Laws/Step.lean ====
section
/-! SUPPORT. What a step can do, said once, and the integrator's operations in terms of it. -/

namespace Sys2Proof.Machine

/-- Everything an instruction can do. -/
theorem exec_convert (a b g r : Byte) (s : State) :
    exec (.convert a b g r) s = .next (s.driveColor16 (convert (wordOfChannels a b g r))) := rfl

/-- Everything a step can do: one next state, from every state. -/
theorem step_eq (s : State) : step s = .next (s.driveColor16 (convert s.color32_i)) := by
  simp only [step, decodeWord, exec_convert, wordOfChannels_lanes]

theorem evaluate_eq (c : Packed32Color) (s : State) :
    evaluate c s = .next { color32_i := c, color16_o := convert c } := by
  simp only [evaluate, step_eq]; rfl

theorem settle_eq (s : State) : settle s = s.driveColor16 (convert s.color32_i) := by
  simp only [settle, step_eq]

/-- A word of the block's own width, or a narrower one, is presented zero-filled. -/
theorem withFetchWord_of_le (s : State) {nbits : Nat} (w : Nat) (h : nbits ≤ 32) :
    s.withFetchWord nbits w = s.drive (BitVec.ofNat 32 (w % 2 ^ nbits)) := if_pos h

/-- A wider word is not presented at all. -/
theorem withFetchWord_of_gt (s : State) {nbits : Nat} (w : Nat) (h : 32 < nbits) : s.withFetchWord nbits w = s :=
  if_neg (Nat.not_le_of_lt h)

/-- `present` peels one evaluation, and never stops at it. -/
theorem present_cons (c : Packed32Color) (cs : List Packed32Color) (s t : State) (ys : List Packed16Color)
    (h : present cs { color32_i := c, color16_o := convert c } = .next (t, ys)) :
    present (c :: cs) s = .next (t, convert c :: ys) := by
  simp only [present, evaluate_eq, h]

theorem refresh_of_held (p : Config.Params) (b : Bench) (h : p.tPd ≤ b.held) :
    Bench.refresh p b = { b with block := b.block.driveColor16 (convert b.block.color32_i) } := by
  simp only [Bench.refresh, if_pos h, settle_eq]

theorem refresh_of_not_held (p : Config.Params) (b : Bench) (h : ¬ p.tPd ≤ b.held) :
    Bench.refresh p b =
      { b with block := b.block.driveColor16 (Config.unsettledOutput b.draws), draws := b.draws + 1 } := by
  simp only [Bench.refresh, if_neg h]

/-- Whatever stands on the output, refreshing leaves the input and the time it has been held alone. -/
theorem refresh_input (p : Config.Params) (b : Bench) :
    (Bench.refresh p b).block.color32_i = b.block.color32_i ∧ (Bench.refresh p b).held = b.held := by
  by_cases h : p.tPd ≤ b.held
  · simp [refresh_of_held p b h]
  · simp [refresh_of_not_held p b h]

/-- Everything one pixel of the harness does. -/
theorem convertPixel_eq (order : Config.StoreOrder) (src dst i : Nat) (h : Harness) :
    convertPixel order src dst i h =
      .next { mem := memWrite order h.mem (dst + 2 * i) 2
                (convert (BitVec.ofNat 32 (memRead h.mem (src + 4 * i) 4))).toNat,
              block := { color32_i := BitVec.ofNat 32 (memRead h.mem (src + 4 * i) 4),
                         color16_o := convert (BitVec.ofNat 32 (memRead h.mem (src + 4 * i) 4)) } } := by
  simp only [convertPixel, evaluate_eq]

theorem convertPixels_succ (order : Config.StoreOrder) (src dst i n : Nat) (h h' : Harness)
    (hp : convertPixel order src dst i h = .next h') :
    convertPixels order src dst i (n + 1) h = convertPixels order src dst (i + 1) n h' := by
  simp only [convertPixels, hp]

end Sys2Proof.Machine
end

