-- ==== Sys2Proof/Laws/Safety.lean ====
section
/-! SUPPORT. How implementations respond: later proofs cite these and unfold no implementation. -/

namespace Sys2Proof

@[simp] theorem Implementation.ofFunction_respond (f : Packed32Color → Packed16Color)
    (h : (Implementation.ofFunction f).Hidden) (c : Packed32Color) :
    (Implementation.ofFunction f).respond h c = ((), f c, []) := rfl

/-- Whatever its ports carried before, the block answers the conversion and has no other effect. -/
theorem Implementation.ofBlock_respond (s : Implementation.ofBlock.Hidden) (c : Packed32Color) :
    Implementation.ofBlock.respond s c =
      (Machine.State.mk c (Machine.convert c), Machine.convert c, []) := by
  simp only [Implementation.ofBlock, Machine.settle_eq, Machine.State.driveColor16_color16_o]
  rfl

theorem Implementation.after_cons (impl : Implementation) (c : Packed32Color) (cs : List Packed32Color)
    (h : impl.Hidden) : impl.after (c :: cs) h = impl.after cs (impl.respond h c).1 := rfl

theorem Implementation.observe_cons (impl : Implementation) (c : Packed32Color) (cs : List Packed32Color)
    (h : impl.Hidden) :
    impl.observe (c :: cs) h =
      ((impl.respond h c).2.1 :: (impl.observe cs (impl.respond h c).1).1,
        (impl.respond h c).2.2 ++ (impl.observe cs (impl.respond h c).1).2) := rfl

end Sys2Proof
end

