-- ==== Sys2Proof/Machine/Flags.lean ====
section
/-! DEFINITION. Flags: the block has none, and no operation sets or reads one (10_state.md R11; 40_convert.md R57).
This file holds no definition. -/
end

