-- ==== Sys2Proof/Tests/Slice0.lean ====
section
/-! SUPPORT. Own tests: the source's scenarios and derived vectors of 95_test_vectors.md, ill-formed listing lines, and
for each statement with hypotheses a witness that meets them. -/

namespace Sys2Proof.Tests

open Sys2Proof.Machine

/-- A settled state with word `c` on the input. -/
def settledAt (c : Packed32Color) : State := { color32_i := c, color16_o := convert c }

/-- A state whose output does not answer its input. -/
def unsettledAt (c : Packed32Color) : State := { color32_i := c, color16_o := ~~~(convert c) }

/-! ### Well-formedness smoke: each check refuses an ill-formed line -/

theorem test_word_too_wide_refused : (ListingLine.word (2 ^ 32)).wellFormed = false := by decide
theorem test_byte_too_wide_refused : (ListingLine.tuple (some 256) (some 0) (some 0) (some 0)).wellFormed = false := by
  decide
theorem test_omitted_alpha_refused : (ListingLine.tuple (some 1) (some 2) (some 3) none).wellFormed = false := by decide
theorem test_omitted_alpha_has_no_word : (ListingLine.tuple (some 1) (some 2) (some 3) none).toWord = none := by decide
theorem test_convert_wellFormed : (Instr.convert 0xDD#8 0xCC#8 0xBB#8 0xAA#8).wellFormed = true := by decide

/-! ### Decoding, bit by bit from 30_encoding.md R34: Alpha, Blue, Green, Red -/

theorem test_decode_spelled_word :
    decodeTableWord 32 0b11011101_11001100_10111011_10101010 = some (.convert 0xDD#8 0xCC#8 0xBB#8 0xAA#8) := by decide
theorem test_decode_bytes_red_first :
    decode [0xAA#8, 0xBB#8, 0xCC#8, 0xDD#8] = .ok (.convert 0xDD#8 0xCC#8 0xBB#8 0xAA#8) := by decide
theorem test_decode_three_bytes_refused : decode [0xAA#8, 0xBB#8, 0xCC#8] = .error (.wrongWidth 3) := by decide
theorem test_table_word_wider_refused : decodeTableWord 40 0 = none := by decide
theorem test_wider_word_not_presented : State.reset.withFetchWord 40 0xFFDDCCBBAA = State.reset := by decide
theorem test_fetch_word_runs :
    step (State.reset.withFetchWord 32 0xDDCCBBAA)
      = exec (.convert 0xDD#8 0xCC#8 0xBB#8 0xAA#8) (State.reset.withFetchWord 32 0xDDCCBBAA) := rfl

/-! ### Scenarios of the source (95_test_vectors.md SRC1 to SRC4; SRC4 as corrected by conflict C1) -/

theorem test_convert_source_scenarios :
    [0x00FFFFFF#32, 0xFF000000#32, 0x00080408#32, 0xDDCCBBAA#32].map convert
      = [0xFFFF#16, 0x0000#16, 0x0821#16, 0xADD9#16] := by decide

/-- V9, V12 (lanes), V29, V31, V35 (bucket edges), V38 (no rounding), V43. -/
theorem test_convert_derived_vectors :
    [0x78563412#32, 0xAABBCCDD#32, 0x000000F7#32, 0x0000FB00#32, 0x00070707#32, 0x00040204#32, 0x12345678#32].map convert
      = [0x11AA#16, 0xDE77#16, 0xF000#16, 0x07C0#16, 0x0020#16, 0x0000#16, 0x7AA6#16] := by decide

/-- V51, V58, V62. -/
theorem test_stages :
    extract 0x12345678#32 = { r8 := 0x78#8, g8 := 0x56#8, b8 := 0x34#8, a8 := 0x12#8 } ∧
    truncate 7#8 7#8 7#8 = { r5 := 0#5, g6 := 1#6, b5 := 0#5 } ∧
    pack { r5 := 0#5, g6 := 63#6, b5 := 0#5 } = 0x07E0#16 := by decide

/-- V64 to V69: SRC4 and the vector that separates S4 from a bare fused shift. -/
theorem test_strategies :
    [strategy1, strategy2, strategy3, strategy4, wiringForm, maskForm].map (fun f => (f 0xDDCCBBAA#32, f 0x00070307#32))
      = List.replicate 6 (0xADD9#16, 0x0000#16) := by decide

/-- Section 5: no history. -/
theorem test_sequence :
    present [0xDDCCBBAA#32, 0xFFFFFFFF#32, 0xDDCCBBAA#32, 0x11CCBBAA#32] State.reset
      = .next (settledAt 0x11CCBBAA#32, [0xADD9#16, 0xFFFF#16, 0xADD9#16, 0xADD9#16]) := rfl

/-- P6, in byte tuples. -/
theorem test_listing_words :
    Listing.toWords [.tuple (some 0xFF) (some 0xFF) (some 0xFF) (some 0x00), .word 0xDDCCBBAA]
      = some [0x00FFFFFF#32, 0xDDCCBBAA#32] := by decide

/-- Two pixels of P1: source bytes at 0x10, results wanted at 0x30. -/
def scanLine : Memory :=
  [(0x10, 0xFF#8), (0x11, 0x00#8), (0x12, 0x00#8), (0x13, 0xFF#8),
   (0x14, 0xAA#8), (0x15, 0xBB#8), (0x16, 0xCC#8), (0x17, 0xDD#8)]

/-- P1, pixels 0 and 3, little and big. -/
theorem test_convertBuffer_scan_line :
    convertBuffer .little 0x10 0x30 2 { mem := scanLine, block := State.reset }
      = .next { mem := scanLine ++ [(0x30, 0x00#8), (0x31, 0xF8#8), (0x32, 0xD9#8), (0x33, 0xAD#8)],
                block := settledAt 0xDDCCBBAA#32 } := rfl
theorem test_convertBuffer_scan_line_big :
    convertBuffer .big 0x10 0x30 2 { mem := scanLine, block := State.reset }
      = .next { mem := scanLine ++ [(0x30, 0xF8#8), (0x31, 0x00#8), (0x32, 0xAD#8), (0x33, 0xD9#8)],
                block := settledAt 0xDDCCBBAA#32 } := rfl

/-- Writing the byte an unlisted address reads as removes the entry. -/
theorem test_write_poison_removes : Memory.write [(3, 0x01#8), (5, 0x02#8)] 3 0xEE#8 = [(5, 0x02#8)] := by decide

theorem test_boundary_refuses :
    driveLevels (Level.x :: List.replicate 31 Level.zero) State.reset = .refused .notBinaryInput ∧
    driveLevels (List.replicate 31 Level.zero) State.reset = .refused (.wrongWidth 31) ∧
    driveBy [] State.reset = .refused .undrivenInput ∧
    driveBy [0#32, 1#32] State.reset = .refused (.busContention 2) := ⟨rfl, rfl, rfl, rfl⟩

/-! ### Witnesses: the hypotheses of each statement are met -/

/-- StepEvaluatesConvert: a word below every first step, and words at both ends of the top bucket. -/
theorem witness_stepEvaluatesConvert :
    ((settledAt 0x00070307#32).color32_i.extractLsb' 0 8).toNat < 8 ∧
    ((settledAt 0x00070307#32).color32_i.extractLsb' 8 8).toNat < 4 ∧
    ((settledAt 0x00070307#32).color32_i.extractLsb' 16 8).toNat < 8 ∧
    (settledAt 0x000000F8#32).color32_i.extractLsb' 0 8 = 0xF8#8 ∧
    (settledAt 0x000000FF#32).color32_i.extractLsb' 0 8 = 0xFF#8 := by decide

theorem witness_stepRunsTheDecodedInstruction :
    decode (laneBytes (unsettledAt 0xDDCCBBAA#32).color32_i) = .ok (.convert 0xDD#8 0xCC#8 0xBB#8 0xAA#8) ∧
    (Instr.convert 0xDD#8 0xCC#8 0xBB#8 0xAA#8).wellFormed = true := by decide

theorem witness_stepReadsOnlyTheInputPort :
    (settledAt 0xDDCCBBAA#32).color32_i = (unsettledAt 0xDDCCBBAA#32).color32_i ∧
    settledAt 0xDDCCBBAA#32 ≠ unsettledAt 0xDDCCBBAA#32 := by decide

theorem witness_everyStepSettles : step (unsettledAt 0xDDCCBBAA#32) = .next (settledAt 0xDDCCBBAA#32) := rfl

theorem witness_decodeAndEncodeAgree :
    (Instr.convert 0xFF#8 0x00#8 0x80#8 0x7F#8).wellFormed = true ∧
    decode [0x7F#8, 0x80#8, 0x00#8, 0xFF#8] = .ok (.convert 0xFF#8 0x00#8 0x80#8 0x7F#8) ∧
    encodeBytes (.convert 1#8 2#8 3#8 4#8) = encodeBytes (.convert 0x01#8 0x02#8 0x03#8 0x04#8) := by decide

theorem witness_exactlyFourBytesDecode : ([] : List Byte).length ≠ 4 ∧ (List.replicate 5 0#8).length ≠ 4 := by decide

theorem witness_byteLanes : (0 < 4 ∧ 0 < 8) ∧ 3 < 4 ∧ 7 < 8 := by decide

theorem witness_truncateStage : (0 < 8 ∧ 0 < 4 ∧ 0 < 8) ∧ 7 < 8 ∧ 3 < 4 ∧ 7 < 8 := by decide

/-- EachFieldDependsOnOneChannel: one channel agrees, the others do not. -/
theorem witness_eachFieldDependsOnOneChannel :
    (0x112233FF#32).extractLsb' 0 8 = (0xAABBCCFF#32).extractLsb' 0 8 ∧
    (0x1122FF33#32).extractLsb' 8 8 = (0xAABBFFCC#32).extractLsb' 8 8 ∧
    (0x11FF2233#32).extractLsb' 16 8 = (0xAAFFBBCC#32).extractLsb' 16 8 := by decide

theorem witness_outputBitsAreCopies : (0 < 16 ∧ 15 < 16) ∧ 0 < 32 ∧ 31 < 32 := by decide

/-- FieldsAreMonotoneStepFunctions: at the first and the last bucket edge. -/
theorem witness_fieldsAreMonotone : (0x07#8 : Byte) ≤ 0x08#8 ∧ (0x07#8 : Byte).toNat < 255 ∧ (0xFE#8 : Byte).toNat < 255 := by
  decide

theorem witness_outputIsMonotone : (0x07#8 : Byte) ≤ 0x08#8 ∧ (0x03#8 : Byte) ≤ 0x04#8 ∧ (0x00#8 : Byte) ≤ 0xFF#8 := by
  decide

/-- WalkingOnesDetermineConvert: `wiringForm` meets every hypothesis. -/
theorem witness_walkingOnes :
    (∀ x x', wiringForm (x ||| x') = wiringForm x ||| wiringForm x') ∧
    (∀ k, k < 16 → wiringForm (1#32 <<< wireSource k) = 1#16 <<< k) ∧
    (∀ j, j < 32 → (∀ k, k < 16 → wireSource k ≠ j) → wiringForm (1#32 <<< j) = 0#16) := by
  have table : ∀ k : Fin 16, wiringForm (1#32 <<< wireSource k) = 1#16 <<< k.val := by decide
  have dropped : ∀ j : Fin 32, (∀ k : Fin 16, wireSource k ≠ j.val) → wiringForm (1#32 <<< j.val) = 0#16 := by decide
  refine ⟨fun x x' => ?_, fun k hk => table ⟨k, hk⟩, fun j hj h => dropped ⟨j, hj⟩ (fun k => h k.val k.isLt)⟩
  apply BitVec.eq_of_getLsbD_eq
  intro i hi
  simp only [wiringForm, BitVec.getLsbD_or, BitVec.getLsbD_append, BitVec.getLsbD_extractLsb']
  split <;> [skip; split] <;> simp [Bool.and_or_distrib_left]

/-- DroppedBitsAreDontCare: all dropped bits differ. -/
theorem witness_droppedBits :
    ∀ j : Fin 32, ¬ (24 ≤ j.val ∨ (16 ≤ j.val ∧ j.val ≤ 18) ∨ (8 ≤ j.val ∧ j.val ≤ 9) ∨ j.val ≤ 2) →
      (0xFF37577F#32).getLsbD j = (settledAt 0x00305478#32).color32_i.getLsbD j := by decide

theorem witness_sequence : [0x01#32, 0xDDCCBBAA#32].getLast? = some 0xDDCCBBAA#32 ∧ ([] : List Packed32Color) = [] := by
  decide

/-- TimeSharingUsersDoNotInterfere: two interleavings of users 0 and 1 (P5). -/
theorem witness_timeSharing (u : Nat) :
    ofUser u [(0, 0xFF#32), (1, 0xFF0000#32), (0, 0xFFFFFF#32)] = ofUser u [(0, 0xFF#32), (0, 0xFFFFFF#32), (1, 0xFF0000#32)] := by
  by_cases h0 : u = 0
  · subst h0; rfl
  · by_cases h1 : u = 1
    · subst h1; rfl
    · have h0' : ¬ 0 = u := fun h => h0 h.symm
      have h1' : ¬ 1 = u := fun h => h1 h.symm
      simp [ofUser, h0', h1']

/-- InstancesAreIndependent: instance 0 gets two words, instance 1 none. -/
theorem witness_instances :
    [State.reset, settledAt 0xFF#32][1]? = some (settledAt 0xFF#32) ∧
    ofUser 1 [(0, 0x01#32), (0, 0x02#32)] = [] ∧
    (ofUser 0 [(0, 0x01#32), (0, 0x02#32)]).getLast? = some 0x02#32 := by decide

theorem witness_reading : [0x01#32, 0xDDCCBBAA#32, 0x02#32][1]? = some 0xDDCCBBAA#32 := by decide

/-- HeldInputIsAnsweredAfterSettleTime: T_PD = 5, cut up, read and driven again meanwhile; exactly T_PD passes. -/
theorem witness_heldInput :
    (∀ a ∈ [BenchAction.wait 2, .sample, .drive 0xAA#32, .wait 3],
      a = .drive 0xAA#32 ∨ a = .sample ∨ ∃ dt, a = .wait dt) ∧
    ({ tPd := 5 } : Config.Params).tPd ≤ totalWait [.wait 2, .sample, .drive 0xAA#32, .wait 3] := by
  refine ⟨?_, by decide⟩
  intro a ha
  simp only [List.mem_cons, List.not_mem_nil, or_false] at ha
  rcases ha with rfl | rfl | rfl | rfl
  · exact .inr (.inr ⟨2, rfl⟩)
  · exact .inr (.inl rfl)
  · exact .inl rfl
  · exact .inr (.inr ⟨3, rfl⟩)

theorem witness_unsettledOutput :
    0xAA#32 ≠ State.reset.color32_i ∧ 0 < ({ tPd := 5 } : Config.Params).tPd ∧
    4 < ({ tPd := 5 } : Config.Params).tPd := by decide

/-- PowerUpOutputIsFreeUntilSettled: T_PD above zero, reached exactly, and zero. -/
theorem witness_powerUp :
    0 < ({ tPd := 5 } : Config.Params).tPd ∧ ({ tPd := 5 } : Config.Params).tPd ≤ 5 ∧
    ({ tPd := 0 } : Config.Params).tPd ≤ 0 := by decide

/-- OtherWidthsAreNotPresentedOrAreZeroFilled: both clauses at their edges. -/
theorem witness_widerWord : (32 < 33 ∧ 32 < 40) ∧ 32 ≤ 32 ∧ 0 ≤ 32 := by decide

/-- ConformingExcludesEffectsAndHistory: one that counts its inputs where nobody sees it conforms; two words that
differ in every dropped bit. -/
theorem witness_conforming :
    Conforms { Hidden := Nat, Effect := Unit, start := 0, respond := fun n c => (n + 1, convert c, []) } ∧
    0x00000000#32 &&& 0x00F8FCF8#32 = 0xFF070307#32 &&& 0x00F8FCF8#32 := ⟨fun _ _ => rfl, by decide⟩

/-- An implementation that remembers its last input and answers that one does not conform (R54, R78). -/
theorem test_history_does_not_conform :
    ¬ Conforms { Hidden := Packed32Color, Effect := Empty, start := 0#32, respond := fun h c => (c, convert h, []) } :=
  fun h => absurd (congrArg Prod.fst (h [] 0x00FFFFFF#32)) (by decide)

/-- An implementation with the right output and one more observable effect does not conform (R53, R78). -/
theorem test_effect_does_not_conform :
    ¬ Conforms { Hidden := Unit, Effect := Unit, start := (), respond := fun _ c => ((), convert c, [()]) } :=
  fun h => absurd (congrArg Prod.snd (h [] 0#32)) (by decide)

theorem witness_registered : ({ tPd := 5 } : Config.Params).tPd + 2 < 8 := by decide

theorem witness_memRead : 0 < 4 ∧ 3 < 4 := by decide

theorem witness_storeOrder : Memory.wf scanLine = true ∧ (0x30 ≠ 0x31 ∧ 0x10 ≠ 0x30 ∧ 0x10 ≠ 0x30 + 1) := by decide

/-- BoundaryAcceptsExactlyBinaryWords: levels on both sides of the iff. -/
theorem witness_boundary :
    (List.replicate 32 Level.one).length = 32 ∧ Level.x ∉ List.replicate 32 Level.one ∧
    Level.z ∈ Level.z :: List.replicate 31 Level.one := by decide

/-- ListingSpellingsAgree: a listing that has its words, and a line of it. -/
theorem witness_listing :
    Listing.toWords [.word 1, .word 2] = some [1#32, 2#32] ∧
    ([.word 1, .word 2] : Listing)[1]? = some (.word 2) := by decide

/-- ConvertBufferConvertsEveryPixel: apart, and touching from either side, and in place. -/
theorem witness_convertBuffer :
    Memory.wf scanLine = true ∧ rangesOk 0x10 0x30 2 = true ∧ rangesOk 0x10 0x18 2 = true ∧
    rangesOk 0x10 0x0C 2 = true ∧ rangesOk 0x10 0x10 2 = true ∧ rangesOk 0x10 0x12 2 = false := by decide

end Sys2Proof.Tests
end

namespace Sys2Proof.Machine

/-! SUPPORT. What MemRead assembles, for every number of bytes: its range, and its base-256 digits. -/

theorem memRead_lt (m : Memory) (a n : Nat) : memRead m a n < 256 ^ n := by
  induction n generalizing a with
  | zero => simp [memRead]
  | succ n ih =>
    have hbyte := (Memory.read m a).isLt
    have hrest := ih (a + 1)
    simp only [memRead, Nat.pow_succ]
    omega

/-- Digit `k` of the number read is the byte at `a + k`: the lowest address is the least significant byte
(00_scope.md R8). -/
theorem memRead_digit (m : Memory) (a : Nat) {k n : Nat} (hk : k < n) :
    memRead m a n / 256 ^ k % 256 = (Memory.read m (a + k)).toNat := by
  induction n generalizing a k with
  | zero => omega
  | succ n ih =>
    have hbyte := (Memory.read m a).isLt
    cases k with
    | zero =>
      simp only [memRead, Nat.pow_zero, Nat.div_one, Nat.add_zero]
      omega
    | succ k =>
      have hshift : memRead m a (n + 1) / 256 = memRead m (a + 1) n := by
        simp only [memRead]
        omega
      calc memRead m a (n + 1) / 256 ^ (k + 1) % 256
          = memRead m a (n + 1) / 256 / 256 ^ k % 256 := by rw [Nat.pow_succ', Nat.div_div_eq_div_mul]
        _ = (Memory.read m (a + 1 + k)).toNat := by rw [hshift, ih (a + 1) (by omega)]
        _ = (Memory.read m (a + (k + 1))).toNat := by rw [Nat.add_right_comm, Nat.add_assoc]

/-- Lane `k` of a word given as a number is the number's digit `k` (20_memory.md R20). -/
theorem byteLane_ofNat_toNat {v : Nat} (hv : v < 2 ^ 32) (k : Nat) :
    (byteLane (BitVec.ofNat 32 v) k).toNat = v / 256 ^ k % 256 := by
  rw [byteLane_toNat, BitVec.toNat_ofNat, Nat.mod_eq_of_lt hv, Nat.pow_mul]

/-- Settles O46: the lanes of the word read are its base-256 digits, and those are the bytes in address order. -/
theorem memReadLanesAreTheBytes : Obligations.MemReadLanesAreTheBytes := by
  unfold Obligations.MemReadLanesAreTheBytes
  intro m a k hk
  have hfits : memRead m a 4 < 2 ^ 32 := memRead_lt m a 4
  refine ⟨hfits, BitVec.eq_of_toNat_eq ?_⟩
  rw [byteLane_ofNat_toNat hfits, memRead_digit m a hk]

end Sys2Proof.Machine

namespace Sys2Proof.Machine

/-! SUPPORT. Settled states: the bit map of 40_convert.md R58, and what it makes of `Settled`. -/

/-- Where each wire of a packed result comes from: bits [4:0] blue, [10:5] green, [15:11] red
(30_encoding.md R35). -/
theorem pack_getLsbD (f : Fields) (k : Nat) :
    (pack f).getLsbD k =
      if k < 5 then f.b5.getLsbD k else if k < 11 then f.g6.getLsbD (k - 5) else f.r5.getLsbD (k - 11) := by
  simp only [pack, BitVec.getLsbD_append]
  by_cases hblue : k < 5
  · simp only [hblue, if_true]
  · by_cases hgreen : k < 11
    · have : k - 5 < 6 := by omega
      simp only [hblue, hgreen, this, if_true, if_false]
    · have : ¬ k - 5 < 6 := by omega
      simp only [hblue, hgreen, this, if_false, Nat.sub_sub, Nat.reduceAdd]

/-- Output wire `k` is a copy of input wire `wireSource k` (40_convert.md R58). -/
theorem convert_getLsbD (c : Packed32Color) {k : Nat} (hk : k < 16) :
    (convert c).getLsbD k = c.getLsbD (wireSource k) := by
  simp only [convert, extract, truncate_eq_slices, pack_getLsbD, BitVec.getLsbD_extractLsb', byteLane_getLsbD,
    wireSource]
  by_cases hblue : k < 5
  · have hlane : 3 + k < 8 := by omega
    have hwire : 8 * 2 + (3 + k) = k + 19 := by omega
    simp [hblue, hlane, hwire]
  · by_cases hgreen : k < 11
    · have hslice : k - 5 < 6 := by omega
      have hlane : 2 + (k - 5) < 8 := by omega
      have hwire : 8 * 1 + (2 + (k - 5)) = k + 5 := by omega
      simp [hblue, hgreen, hslice, hlane, hwire]
    · have hslice : k - 11 < 5 := by omega
      have hlane : k - 8 < 8 := by omega
      have hwire : 3 + (k - 11) = k - 8 := by omega
      simp [hblue, hgreen, hslice, hlane, hwire]

/-- Settled, said of wires, is the same as the output port carrying `CONVERT` of the input port (10_state.md R14). -/
theorem settled_iff (s : State) : Settled s ↔ s.color16_o = convert s.color32_i := by
  constructor
  · intro hwires
    refine BitVec.eq_of_getLsbD_eq fun k hk => ?_
    rw [hwires k hk, convert_getLsbD _ hk]
  · intro hout k hk
    rw [hout, convert_getLsbD _ hk]

/-- What stands on the output before a step leaves no trace in it (10_state.md R17). -/
theorem driveColor16_eq_of_input {s s' : State} (h : s.color32_i = s'.color32_i) (v : Packed16Color) :
    s.driveColor16 v = s'.driveColor16 v :=
  State.ext_ports h rfl

@[simp] theorem State.reset_color16_o : State.reset.color16_o = convert State.reset.color32_i := rfl

theorem convert_zero : convert 0#32 = 0#16 := by decide

/-! SUPPORT. Every bench action as an equation, and the bench at power-up. -/

theorem Bench.act_wait (p : Config.Params) (dt : Nat) (b : Bench) :
    Bench.act p (.wait dt) b = (Bench.refresh p { b with held := b.held + dt }, []) := rfl

@[simp] theorem Bench.act_wait_reads (p : Config.Params) (dt : Nat) (b : Bench) :
    (Bench.act p (.wait dt) b).2 = [] := rfl

@[simp] theorem Bench.act_sample (p : Config.Params) (b : Bench) :
    Bench.act p .sample b = (b, [b.block.color16_o]) := rfl

@[simp] theorem Bench.run_nil (p : Config.Params) (b : Bench) : Bench.run p [] b = (b, []) := rfl

@[simp] theorem Bench.run_cons (p : Config.Params) (a : BenchAction) (as : List BenchAction) (b : Bench) :
    Bench.run p (a :: as) b =
      ((Bench.run p as (Bench.act p a b).1).1, (Bench.act p a b).2 ++ (Bench.run p as (Bench.act p a b).1).2) := rfl

/-- Once the input has been held for `T_PD`, counting the ticks just waited, the bench carries the answer
(70_reset_and_hazards.md R97). -/
theorem Bench.wait_block_of_held (p : Config.Params) (dt : Nat) (b : Bench) (h : p.tPd ≤ b.held + dt) :
    (Bench.act p (.wait dt) b).1.block = b.block.driveColor16 (convert b.block.color32_i) := by
  rw [Bench.act_wait, refresh_of_held p _ h]

theorem Bench.start_input (p : Config.Params) :
    (Bench.start p).block.color32_i = State.reset.color32_i ∧ (Bench.start p).held = 0 :=
  refresh_input p _

/-- Before `T_PD` has passed, power-up shows the first draw of the free value (70_reset_and_hazards.md R98). -/
theorem Bench.start_output_of_pos (p : Config.Params) (h : 0 < p.tPd) :
    (Bench.start p).block.color16_o = Config.unsettledOutput 0 := by
  rw [Bench.start, refresh_of_not_held p _ (Nat.not_le_of_lt h), State.driveColor16_color16_o]

/-- Held for `T_PD` from power-up, the bench is at `State.reset`, whatever it showed before. -/
theorem Bench.start_wait_block (p : Config.Params) (dt : Nat) (h : p.tPd ≤ dt) :
    (Bench.act p (.wait dt) (Bench.start p)).1.block = State.reset := by
  obtain ⟨hinput, hheld⟩ := Bench.start_input p
  have hpassed : p.tPd ≤ (Bench.start p).held + dt := by omega
  rw [Bench.wait_block_of_held p dt _ hpassed, hinput]
  exact State.ext_ports hinput rfl

/-! SUPPORT. The statements about the ports, reset and power-up. -/

/-- Settles O7: a step overwrites the output with a function of the input alone. -/
theorem stepReadsOnlyTheInputPort : Obligations.StepReadsOnlyTheInputPort := by
  unfold Obligations.StepReadsOnlyTheInputPort
  intro s s' hinput
  rw [step_eq, step_eq, hinput, driveColor16_eq_of_input hinput]

/-- Settles O9: reset carries `CONVERT` of its input, which is what settled means. -/
theorem resetIsSettled : Obligations.ResetIsSettled := by
  unfold Obligations.ResetIsSettled
  exact ⟨(settled_iff _).mpr State.reset_color16_o, State.reset_color16_o⟩

/-- Settles O10: the input is the model's zero, and the output is its conversion. -/
theorem resetPortsAreZeroByChoice : Obligations.ResetPortsAreZeroByChoice := by
  unfold Obligations.ResetPortsAreZeroByChoice
  exact State.ext_ports rfl convert_zero

/-- Settles O49: at power-up the bench shows the first draw, and waiting for `T_PD` brings it to `State.reset`, whose
output is the conversion of the input that the bench had from the start. -/
theorem powerUpOutputIsFreeUntilSettled : Obligations.PowerUpOutputIsFreeUntilSettled := by
  unfold Obligations.PowerUpOutputIsFreeUntilSettled
  constructor
  · intro p hpos
    refine ⟨?_, (Bench.start_input p).2⟩
    simp only [Bench.run_cons, Bench.run_nil, Bench.act_sample, Bench.start_output_of_pos p hpos, List.append_nil]
  · intro p dt hpassed
    have hblock := Bench.start_wait_block p dt hpassed
    obtain ⟨hinput, -⟩ := Bench.start_input p
    constructor
    · simp only [Bench.run_cons, Bench.run_nil, Bench.act_wait_reads, Bench.act_sample, hblock, State.reset_color16_o,
        hinput, List.nil_append, List.append_nil]
    · rw [Bench.run_cons, Bench.run_nil, hblock]

end Sys2Proof.Machine

namespace Sys2Proof.Machine

/-! SUPPORT. The views of a word: its byte lanes, its two halves, its channels (20_memory.md R20, R22). -/

theorem byteLane_eq_slice (v : Packed32Color) (k : Nat) : byteLane v k = v.extractLsb' (8 * k) 8 := rfl

/-- The four channels, taken together, are the two halves {A8, B8} and {G8, R8} (20_memory.md R22). -/
theorem wordOfChannels_eq_halves (a b g r : Byte) : wordOfChannels a b g r = (a ++ b) ++ (g ++ r) :=
  BitVec.append_assoc

theorem extract_wordOfChannels (a b g r : Byte) :
    extract (wordOfChannels a b g r) = { r8 := r, g8 := g, b8 := b, a8 := a } := by
  obtain ⟨hr, hg, hb, ha⟩ := byteLane_wordOfChannels a b g r
  rw [extract, hr, hg, hb, ha]

/-- Settles O19: the integer is that of the channels' weights, the halves are read off the word's two halves, and
EXTRACT takes the four lanes. -/
theorem recordAndHalfwordViewsAgree : Obligations.RecordAndHalfwordViewsAgree := by
  unfold Obligations.RecordAndHalfwordViewsAgree
  intro a b g r
  refine ⟨wordOfChannels_toNat a b g r, ?_, ?_, extract_wordOfChannels a b g r⟩
  · rw [wordOfChannels_eq_halves]
    exact BitVec.extractLsb'_append_eq_right
  · rw [wordOfChannels_eq_halves]
    exact BitVec.extractLsb'_append_eq_left

/-- Settles O18: bit by bit from the slice a lane is; each channel is its lane. -/
theorem byteLanesAreLittleEndian : Obligations.ByteLanesAreLittleEndian := by
  unfold Obligations.ByteLanesAreLittleEndian
  refine ⟨?_, ?_, ?_⟩
  · intro v k j _ hj
    rw [byteLane_getLsbD, decide_eq_true hj, Bool.true_and]
  · intro v
    exact ⟨byteLane_eq_slice v 0, byteLane_eq_slice v 1, byteLane_eq_slice v 2, byteLane_eq_slice v 3⟩
  · decide

end Sys2Proof.Machine

namespace Sys2Proof.Machine

/-! SUPPORT. Presenting a list of words: `present` as a fold and a map, once for all lists (40_convert.md R62). -/

/-- What evaluating a word leaves on the ports, whatever stood there before. -/
theorem settle_drive (s : State) (c : Packed32Color) :
    settle (s.drive c) = { color32_i := c, color16_o := convert c } :=
  settle_eq (s.drive c)

/-- Presenting never stops; it drives and settles word after word, and answers the conversion of each. -/
theorem present_eq (cs : List Packed32Color) (s : State) :
    present cs s = .next (cs.foldl (fun t c => settle (t.drive c)) s, cs.map convert) := by
  induction cs generalizing s with
  | nil => rfl
  | cons c cs ih =>
    rw [present_cons c cs s _ _ (ih _), List.foldl_cons, List.map_cons, settle_drive]

/-- Settles O40: sampling, driving and the evaluation by their equations; in a list the outputs are the map of
`convert`, position by position. -/
theorem readingAndDrivingHaveNoSideEffect : Obligations.ReadingAndDrivingHaveNoSideEffect := by
  unfold Obligations.ReadingAndDrivingHaveNoSideEffect
  refine ⟨Bench.act_sample, fun s c => ⟨rfl, evaluate_eq c s⟩, fun cs s x => ⟨_, _, present_eq cs s, ?_⟩⟩
  intro k hx
  rw [List.getElem?_map, hx, Option.map_some]

end Sys2Proof.Machine

namespace Sys2Proof.Machine

/-! SUPPORT. MemWrite: what reads back, what is left alone, and the two bytes of a result in either order
(20_memory.md R28, R29). -/

theorem read_memWrite_outside {m : Memory} {order : Config.StoreOrder} {a n v x : Nat} (h : Memory.wf m = true)
    (hx : x < a ∨ a + n ≤ x) : Memory.read (memWrite order m a n v) x = Memory.read m x :=
  Memory.read_writeBytes_outside h (by rwa [storedBytes_length])

/-- The two bytes of a 2-byte store read back in the order they are stored in. -/
theorem read_memWrite_pair {m : Memory} (order : Config.StoreOrder) (a v : Nat) (h : Memory.wf m = true) :
    [Memory.read (memWrite order m a 2 v) a, Memory.read (memWrite order m a 2 v) (a + 1)]
      = storedBytes order 2 v := by
  have hlen : (storedBytes order 2 v).length = 2 := storedBytes_length order 2 v
  have hbyte : ∀ k (hk : k < (storedBytes order 2 v).length),
      Memory.read (memWrite order m a 2 v) (a + k) = (storedBytes order 2 v)[k] :=
    fun k hk => Memory.read_writeBytes_inside h hk
  have hfirst := hbyte 0 (by omega)
  have hsecond := hbyte 1 (by omega)
  rw [Nat.add_zero] at hfirst
  rw [hfirst, hsecond]
  exact (List.eq_getElem_of_length_eq_two _ hlen).symm

/-- The low and the high byte of a result, as the bytes of its number. -/
theorem bytesOfNat_result (y : Packed16Color) :
    bytesOfNat 2 y.toNat = [y.extractLsb' 0 8, y.extractLsb' 8 8] := by
  have hlow : BitVec.ofNat 8 y.toNat = y.extractLsb' 0 8 := by
    apply BitVec.eq_of_toNat_eq
    simp
  have hhigh : BitVec.ofNat 8 (y.toNat / 256) = y.extractLsb' 8 8 := by
    apply BitVec.eq_of_toNat_eq
    simp [Nat.shiftRight_eq_div_pow]
  simp only [bytesOfNat, hlow, hhigh]

theorem storedBytes_little_result (y : Packed16Color) :
    storedBytes .little 2 y.toNat = [y.extractLsb' 0 8, y.extractLsb' 8 8] :=
  bytesOfNat_result y

theorem storedBytes_big_result (y : Packed16Color) :
    storedBytes .big 2 y.toNat = [y.extractLsb' 8 8, y.extractLsb' 0 8] := by
  rw [storedBytes, bytesOfNat_result]
  rfl

/-- A slice of a slice is a slice of the whole. -/
theorem slice_of_slice {w : Nat} (x : BitVec w) (s : Nat) {n i j : Nat} (h : i + j ≤ n) :
    (x.extractLsb' s n).extractLsb' i j = x.extractLsb' (s + i) j := by
  apply BitVec.eq_of_getLsbD_eq
  intro k hk
  have hinside : i + k < n := by omega
  simp only [BitVec.getLsbD_extractLsb', hk, hinside, decide_true, Bool.true_and, Nat.add_assoc]

/-- The low byte of a result is {G6[2:0], B5} (20_memory.md R29). -/
theorem resultLowByte_eq_fields (y : Packed16Color) :
    y.extractLsb' 0 8 = (y.extractLsb' 5 6).extractLsb' 0 3 ++ y.extractLsb' 0 5 := by
  rw [slice_of_slice y 5 (by decide)]
  exact (BitVec.extractLsb'_append_extractLsb'_eq_extractLsb' (len₁ := 5) (len₂ := 3) (x := y) rfl).symm

/-- The high byte of a result is {R5, G6[5:3]} (20_memory.md R29). -/
theorem resultHighByte_eq_fields (y : Packed16Color) :
    y.extractLsb' 8 8 = y.extractLsb' 11 5 ++ (y.extractLsb' 5 6).extractLsb' 3 3 := by
  rw [slice_of_slice y 5 (by decide)]
  exact (BitVec.extractLsb'_append_extractLsb'_eq_extractLsb' (len₁ := 3) (len₂ := 5) (x := y) rfl).symm

/-- Settles O47: both orders store the same two bytes, reversed, and a store touches nothing but its two addresses. -/
theorem storeOrderPlacesResultBytes : Obligations.StoreOrderPlacesResultBytes := by
  unfold Obligations.StoreOrderPlacesResultBytes
  intro m a y hwf
  have hlittle := (read_memWrite_pair .little a y.toNat hwf).trans (storedBytes_little_result y)
  have hbig := (read_memWrite_pair .big a y.toNat hwf).trans (storedBytes_big_result y)
  simp only [List.cons.injEq, and_true] at hlittle hbig
  obtain ⟨hlittleLow, hlittleHigh⟩ := hlittle
  obtain ⟨hbigHigh, hbigLow⟩ := hbig
  refine ⟨hlittleLow, resultLowByte_eq_fields y, hlittleHigh, resultHighByte_eq_fields y, hbigHigh, hbigLow, ?_⟩
  intro order
  refine ⟨Memory.wf_memWrite order a 2 _ hwf, fun x hx hx' => read_memWrite_outside hwf ?_⟩
  omega

/-- Settles O52: the default of the model's parameters. -/
theorem storeOrderDefaultsToLittle : Obligations.StoreOrderDefaultsToLittle := by
  unfold Obligations.StoreOrderDefaultsToLittle
  intro tPd
  rfl

end Sys2Proof.Machine

namespace Sys2Proof.Machine

/-! SUPPORT. `ConvertBuffer` (20_memory.md R28): the harness after its first `k` pixels as a function of `k`, tied to
the loop of the model, and what it keeps. -/

/-- MemRead depends on the bytes it covers only. -/
theorem memRead_congr {m m' : Memory} {a n : Nat}
    (h : ∀ x, a ≤ x → x < a + n → Memory.read m' x = Memory.read m x) : memRead m' a n = memRead m a n := by
  induction n generalizing a with
  | zero => rfl
  | succ n ih =>
    have hfirst : Memory.read m' a = Memory.read m a := h a (by omega) (by omega)
    have hrest : memRead m' (a + 1) n = memRead m (a + 1) n := ih fun x hlo hhi => h x (by omega) (by omega)
    rw [memRead, memRead, hfirst, hrest]

theorem memRead_four (m : Memory) (a : Nat) :
    memRead m a 4 = (Memory.read m a).toNat + (Memory.read m (a + 1)).toNat * 2 ^ 8
      + (Memory.read m (a + 2)).toNat * 2 ^ 16 + (Memory.read m (a + 3)).toNat * 2 ^ 24 := by
  simp only [memRead, Nat.add_assoc, Nat.reduceAdd]
  omega

theorem rangesOk_iff (src dst n : Nat) :
    rangesOk src dst n = true ↔ dst + 2 * n ≤ src ∨ src + 4 * n ≤ dst ∨ dst = src := by
  simp only [rangesOk, Bool.or_eq_true, decide_eq_true_eq, or_assoc]

/-- The word of pixel `i` of a source buffer in memory. -/
def pixelWord (m : Memory) (src i : Nat) : Packed32Color :=
  BitVec.ofNat 32 (memRead m (src + 4 * i) 4)

/-- The harness after one turn of the loop. -/
def afterPixel (order : Config.StoreOrder) (src dst i : Nat) (h : Harness) : Harness :=
  { mem := memWrite order h.mem (dst + 2 * i) 2 (convert (pixelWord h.mem src i)).toNat,
    block := settle (h.block.drive (pixelWord h.mem src i)) }

/-- The harness after the first `k` turns of the loop. -/
def afterPixels (order : Config.StoreOrder) (src dst : Nat) (h : Harness) : Nat → Harness
  | 0 => h
  | k + 1 => afterPixel order src dst k (afterPixels order src dst h k)

theorem convertPixel_eq_afterPixel (order : Config.StoreOrder) (src dst i : Nat) (h : Harness) :
    convertPixel order src dst i h = .next (afterPixel order src dst i h) := by
  rw [convertPixel_eq, afterPixel, settle_drive]
  rfl

/-- From turn `k` on, the loop goes through the harnesses after `k`, `k + 1`, … pixels. -/
theorem convertPixels_from_afterPixels (order : Config.StoreOrder) (src dst : Nat) (h : Harness) (k j : Nat) :
    convertPixels order src dst k j (afterPixels order src dst h k) = .next (afterPixels order src dst h (k + j)) := by
  induction j generalizing k with
  | zero => rfl
  | succ j ih =>
    have hturn := convertPixel_eq_afterPixel order src dst k (afterPixels order src dst h k)
    rw [convertPixels_succ order src dst k j _ _ hturn, show k + (j + 1) = k + 1 + j by omega]
    exact ih (k + 1)

theorem convertPixels_eq_afterPixels (order : Config.StoreOrder) (src dst : Nat) (h : Harness) (n : Nat) :
    convertPixels order src dst 0 n h = .next (afterPixels order src dst h n) := by
  have hloop := convertPixels_from_afterPixels order src dst h 0 n
  rwa [Nat.zero_add] at hloop

section Loop

variable {order : Config.StoreOrder} {src dst n : Nat} {h : Harness}

theorem wf_afterPixels (hwf : Memory.wf h.mem = true) (k : Nat) :
    Memory.wf (afterPixels order src dst h k).mem = true := by
  induction k with
  | zero => exact hwf
  | succ k ih => exact Memory.wf_memWrite order (dst + 2 * k) 2 _ ih

/-- The first `k` turns write nothing but the first `k` results. -/
theorem read_afterPixels_outside (hwf : Memory.wf h.mem = true) {k x : Nat} (hx : x < dst ∨ dst + 2 * k ≤ x) :
    Memory.read (afterPixels order src dst h k).mem x = Memory.read h.mem x := by
  induction k with
  | zero => rfl
  | succ k ih =>
    calc Memory.read (afterPixels order src dst h (k + 1)).mem x
        = Memory.read (afterPixels order src dst h k).mem x :=
          read_memWrite_outside (wf_afterPixels hwf k) (by omega)
      _ = Memory.read h.mem x := ih (by omega)

/-- No later read sees an earlier write: on ranges the harness allows, turn `i` reads the pixel that stood in memory
before the run. In place (`dst = src`) the results written so far end at `src + 2i`, no higher than pixel `i`. -/
theorem pixelWord_afterPixels (hwf : Memory.wf h.mem = true) (hranges : rangesOk src dst n = true) {i : Nat}
    (hi : i < n) : pixelWord (afterPixels order src dst h i).mem src i = pixelWord h.mem src i := by
  rw [rangesOk_iff] at hranges
  refine congrArg (BitVec.ofNat 32) (memRead_congr fun x hlo hhi => read_afterPixels_outside hwf ?_)
  omega

/-- The result of turn `i` stands at `dst + 2i` after that turn and every later one. -/
theorem read_afterPixels_result (hwf : Memory.wf h.mem = true) (hranges : rangesOk src dst n = true) {i k : Nat}
    (hi : i < k) (hk : k ≤ n) :
    [Memory.read (afterPixels order src dst h k).mem (dst + 2 * i),
        Memory.read (afterPixels order src dst h k).mem (dst + 2 * i + 1)]
      = storedBytes order 2 (convert (pixelWord h.mem src i)).toNat := by
  induction k with
  | zero => omega
  | succ k ih =>
    have hwfBefore := wf_afterPixels (order := order) (src := src) (dst := dst) hwf k
    rcases Nat.lt_succ_iff_lt_or_eq.mp hi with hearlier | rfl
    · have hkept : ∀ x, x < dst + 2 * k →
          Memory.read (afterPixels order src dst h (k + 1)).mem x = Memory.read (afterPixels order src dst h k).mem x :=
        fun x hx => read_memWrite_outside hwfBefore (.inl hx)
      rw [hkept _ (by omega), hkept _ (by omega)]
      exact ih hearlier (by omega)
    · rw [← pixelWord_afterPixels (order := order) hwf hranges hk]
      exact read_memWrite_pair order (dst + 2 * i) _ hwfBefore

/-- The block is driven with the words of the pixels, in order, and with nothing else. -/
theorem block_afterPixels (hwf : Memory.wf h.mem = true) (hranges : rangesOk src dst n = true) {k : Nat}
    (hk : k ≤ n) :
    (afterPixels order src dst h k).block
      = ((List.range k).map (pixelWord h.mem src)).foldl (fun t c => settle (t.drive c)) h.block := by
  induction k with
  | zero => rfl
  | succ k ih =>
    have hturn : (afterPixels order src dst h (k + 1)).block
        = settle ((afterPixels order src dst h k).block.drive (pixelWord h.mem src k)) := by
      rw [← pixelWord_afterPixels (order := order) hwf hranges hk]
      rfl
    rw [hturn, ih (by omega), List.range_succ, List.map_append, List.foldl_append]
    rfl

/-- Turn `i` evaluates the word of pixel `i` on the block, and leaves it at that word. -/
theorem evaluate_afterPixels (hwf : Memory.wf h.mem = true) (hranges : rangesOk src dst n = true) {i : Nat}
    (hi : i < n) :
    evaluate (pixelWord h.mem src i) (afterPixels order src dst h i).block
        = .next (afterPixels order src dst h (i + 1)).block ∧
      (afterPixels order src dst h (i + 1)).block
        = { color32_i := pixelWord h.mem src i, color16_o := convert (pixelWord h.mem src i) } := by
  have hblock : (afterPixels order src dst h (i + 1)).block
      = { color32_i := pixelWord h.mem src i, color16_o := convert (pixelWord h.mem src i) } := by
    rw [← pixelWord_afterPixels (order := order) hwf hranges hi]
    exact settle_drive _ _
  exact ⟨(evaluate_eq _ _).trans (congrArg _ hblock.symm), hblock⟩

/-- The whole run, as the words of the pixels presented to the block. -/
theorem present_pixelWords (hwf : Memory.wf h.mem = true) (hranges : rangesOk src dst n = true) :
    present ((List.range n).map (pixelWord h.mem src)) h.block
      = .next ((afterPixels order src dst h n).block,
          (List.range n).map (fun i => convert (pixelWord h.mem src i))) := by
  rw [present_eq, block_afterPixels hwf hranges (Nat.le_refl n), List.map_map]
  rfl

end Loop

/-- Settles O48: the run ends at the harness after `n` pixels; the harness after `i` pixels is the one before turn
`i`, and what each of them keeps gives the clauses. -/
theorem convertBufferConvertsEveryPixel : Obligations.ConvertBufferConvertsEveryPixel := by
  unfold Obligations.ConvertBufferConvertsEveryPixel
  refine ⟨memRead_four, rangesOk_iff, ?_⟩
  intro order src dst n h hwf hranges word
  refine ⟨afterPixels order src dst h n, convertPixels_eq_afterPixels order src dst h n, wf_afterPixels hwf n,
    fun i hi => read_afterPixels_result hwf hranges hi (Nat.le_refl n),
    fun x hx => read_afterPixels_outside hwf hx, ?_, ?_, present_pixelWords hwf hranges⟩
  · rintro rfl
    rfl
  · intro i hi
    obtain ⟨hevaluate, hblock⟩ := evaluate_afterPixels (order := order) hwf hranges hi
    have hrest := convertPixels_from_afterPixels order src dst h (i + 1) (n - (i + 1))
    rw [Nat.add_sub_cancel' hi] at hrest
    exact ⟨_, _, convertPixels_eq_afterPixels order src dst h i, convertPixel_eq_afterPixel order src dst i _,
      hevaluate, hblock, hrest⟩

end Sys2Proof.Machine

namespace Sys2Proof.Machine

/-! SUPPORT. The decoder and the encoder (30_encoding.md R34, R39): what each does on words, on bytes and on table
words, and that they are inverse to each other. -/

@[simp] theorem laneBytes_wordOfChannels (a b g r : Byte) : laneBytes (wordOfChannels a b g r) = [r, g, b, a] := by
  obtain ⟨hr, hg, hb, ha⟩ := byteLane_wordOfChannels a b g r
  rw [laneBytes, hr, hg, hb, ha]

@[simp] theorem decodeWord_wordOfChannels (a b g r : Byte) :
    decodeWord (wordOfChannels a b g r) = .convert a b g r := by
  obtain ⟨hr, hg, hb, ha⟩ := byteLane_wordOfChannels a b g r
  rw [decodeWord, hr, hg, hb, ha]

@[simp] theorem encode_decodeWord (w : Packed32Color) : encode (decodeWord w) = w :=
  wordOfChannels_lanes w

@[simp] theorem decodeWord_encode (i : Instr) : decodeWord (encode i) = i := by
  cases i with
  | convert a b g r => exact decodeWord_wordOfChannels a b g r

theorem decode_four (b0 b1 b2 b3 : Byte) : decode [b0, b1, b2, b3] = .ok (.convert b3 b2 b1 b0) :=
  congrArg Except.ok (decodeWord_wordOfChannels b3 b2 b1 b0)

/-- No word is invalid: the lanes of every word decode to what the word selects (30_encoding.md R39, R40). -/
@[simp] theorem decode_laneBytes (w : Packed32Color) : decode (laneBytes w) = .ok (decodeWord w) :=
  decode_four _ _ _ _

theorem decode_encodeBytes (i : Instr) : decode (encodeBytes i) = .ok i := by
  rw [encodeBytes, decode_laneBytes, decodeWord_encode]

/-- A run of bytes that is not one 32-bit word is rejected, whatever its bytes (30_encoding.md R36; assumption 13). -/
theorem decode_of_length_ne {bytes : List Byte} (h : bytes.length ≠ 4) :
    decode bytes = .error (.wrongWidth bytes.length) := by
  unfold decode
  split
  · exact absurd rfl h
  · rfl

/-- All that decodes: the bytes of an instruction, and they decode to it. -/
theorem decode_eq_ok_iff (bytes : List Byte) (i : Instr) : decode bytes = .ok i ↔ encodeBytes i = bytes := by
  constructor
  · intro hok
    have hlen : bytes.length = 4 := by
      by_contra hne
      rw [decode_of_length_ne hne] at hok
      cases hok
    obtain ⟨b0, b1, b2, b3, rfl⟩ := List.length_eq_four.mp hlen
    rw [decode_four] at hok
    cases hok
    exact laneBytes_wordOfChannels b3 b2 b1 b0
  · rintro rfl
    exact decode_encodeBytes i

theorem encodeBytes_length (i : Instr) : (encodeBytes i).length = 4 := rfl

theorem encodeBytes_injective : Function.Injective encodeBytes := by
  intro i j hbytes
  have hj : decode (encodeBytes i) = .ok j := (decode_eq_ok_iff _ j).mpr hbytes.symm
  rw [decode_encodeBytes] at hj
  exact Except.ok.inj hj

/-- The four low bytes of a number are the lanes of the word it gives (20_memory.md R20). -/
theorem bytesOfNat_four (v : Nat) : bytesOfNat 4 v = laneBytes (BitVec.ofNat 32 v) := by
  have hbyte : ∀ k, k < 4 → BitVec.ofNat 8 (v / 2 ^ (8 * k)) = byteLane (BitVec.ofNat 32 v) k := by
    intro k hk
    apply BitVec.eq_of_toNat_eq
    rw [byteLane_toNat, BitVec.toNat_ofNat, BitVec.toNat_ofNat]
    interval_cases k <;> omega
  have h0 := hbyte 0 (by decide)
  have h1 := hbyte 1 (by decide)
  have h2 := hbyte 2 (by decide)
  have h3 := hbyte 3 (by decide)
  simp only [bytesOfNat, laneBytes, ← h0, ← h1, ← h2, ← h3, Nat.div_div_eq_div_mul]
  norm_num

/-- A table word is its bytes, decoded. -/
theorem decodeTableWord_eq_toOption (nbits w : Nat) :
    decodeTableWord nbits w = (decode (bytesOfNat (max 4 ((nbits + 7) / 8)) (w % 2 ^ nbits))).toOption := by
  unfold decodeTableWord
  cases decode (bytesOfNat (max 4 ((nbits + 7) / 8)) (w % 2 ^ nbits)) <;> rfl

/-- A row of the block's own width, or a narrower one, decodes zero-filled (assumption 13). -/
theorem decodeTableWord_of_le {nbits : Nat} (w : Nat) (h : nbits ≤ 32) :
    decodeTableWord nbits w = some (decodeWord (BitVec.ofNat 32 (w % 2 ^ nbits))) := by
  have hfour : max 4 ((nbits + 7) / 8) = 4 := by omega
  rw [decodeTableWord_eq_toOption, hfour, bytesOfNat_four, decode_laneBytes]
  rfl

/-- A wider row has more than four bytes, so nothing decodes from it (assumption 13). -/
theorem decodeTableWord_of_gt {nbits : Nat} (w : Nat) (h : 32 < nbits) : decodeTableWord nbits w = none := by
  have hlen : (bytesOfNat (max 4 ((nbits + 7) / 8)) (w % 2 ^ nbits)).length ≠ 4 := by
    rw [bytesOfNat_length]
    omega
  rw [decodeTableWord_eq_toOption, decode_of_length_ne hlen]
  rfl

theorem ofNat_toNat_mod (w : Packed32Color) : BitVec.ofNat 32 (w.toNat % 2 ^ 32) = w := by
  rw [Nat.mod_eq_of_lt w.isLt, BitVec.ofNat_toNat, BitVec.setWidth_eq]

theorem decodeTableWord_toNat (w : Packed32Color) : decodeTableWord 32 w.toNat = some (decodeWord w) := by
  rw [decodeTableWord_of_le _ (Nat.le_refl 32), ofNat_toNat_mod]

/-- A number written out from the format decodes to the channels it is written from (30_encoding.md R34). -/
theorem decodeTableWord_of_channels {a b g r : Byte} {n : Nat} (h : (wordOfChannels a b g r).toNat = n) :
    decodeTableWord 32 n = some (.convert a b g r) := by
  rw [← h, decodeTableWord_toNat, decodeWord_wordOfChannels]

/-- Settles O13: decoding a word undoes encoding and the other way round; on bytes, decoding to an instruction is the
same as being its bytes. -/
theorem decodeAndEncodeAgree : Obligations.DecodeAndEncodeAgree := by
  unfold Obligations.DecodeAndEncodeAgree
  refine ⟨?_, encode_decodeWord, fun bytes i => (decode_eq_ok_iff bytes i).mp, fun i j => @encodeBytes_injective i j⟩
  intro i _
  refine ⟨decodeWord_encode i, decode_encodeBytes i, ?_⟩
  rw [decodeTableWord_toNat, decodeWord_encode]

/-- Settles O14: what decodes is the bytes of an instruction, four; four bytes decode; any other number is rejected. -/
theorem exactlyFourBytesDecode : Obligations.ExactlyFourBytesDecode := by
  unfold Obligations.ExactlyFourBytesDecode
  intro bytes
  refine ⟨⟨?_, ?_⟩, decode_of_length_ne⟩
  · rintro ⟨i, hok⟩
    rw [← (decode_eq_ok_iff bytes i).mp hok, encodeBytes_length]
  · intro hlen
    obtain ⟨b0, b1, b2, b3, rfl⟩ := List.length_eq_four.mp hlen
    exact ⟨_, decode_four b0 b1 b2 b3⟩

/-- Settles O15: mask 0 keeps nothing of a word, its lanes are the slices of the table, and there is one
constructor. -/
theorem everyWordSelectsConvert : Obligations.EveryWordSelectsConvert := by
  unfold Obligations.EveryWordSelectsConvert
  constructor
  · intro w
    exact ⟨BitVec.and_zero, decode_laneBytes w⟩
  · intro i
    cases i with
    | convert a b g r => exact ⟨a, b, g, r, rfl⟩

/-- Settles O16: each number is that of its four channels, and the four bytes stand Red first. -/
theorem spelledOutWordsDecode : Obligations.SpelledOutWordsDecode := by
  unfold Obligations.SpelledOutWordsDecode
  exact ⟨decodeTableWord_of_channels (by decide), decodeTableWord_of_channels (by decide),
    decodeTableWord_of_channels (by decide), decode_four _ _ _ _⟩

/-- Settles O50: presenting and decoding make the same split at 32 bits, and fill up with the same zeros. -/
theorem otherWidthsAreNotPresentedOrAreZeroFilled : Obligations.OtherWidthsAreNotPresentedOrAreZeroFilled := by
  unfold Obligations.OtherWidthsAreNotPresentedOrAreZeroFilled
  constructor
  · intro s nbits w hwide
    exact ⟨withFetchWord_of_gt s w hwide, decodeTableWord_of_gt w hwide⟩
  · intro s nbits w hfits
    rw [withFetchWord_of_le s w hfits, State.drive_color32_i]
    refine ⟨?_, decodeTableWord_of_le w hfits⟩
    have hlt : w % 2 ^ nbits < 2 ^ 32 :=
      Nat.lt_of_lt_of_le (Nat.mod_lt w (Nat.two_pow_pos nbits)) (Nat.pow_le_pow_right (by decide) hfits)
    rw [BitVec.toNat_ofNat, Nat.mod_eq_of_lt hlt]

/-! SUPPORT. A step runs the instruction that stands on the input port (30_encoding.md R39). -/

theorem withFetchWord_toNat (s : State) (w : Packed32Color) : s.withFetchWord 32 w.toNat = s.drive w := by
  rw [withFetchWord_of_le s _ (Nat.le_refl 32), ofNat_toNat_mod]

theorem step_of_decode {s : State} {i : Instr} (h : decode (laneBytes s.color32_i) = .ok i) : step s = exec i s := by
  rw [decode_laneBytes] at h
  cases h
  rfl

theorem step_drive_encode (s : State) (i : Instr) : step (s.drive (encode i)) = exec i (s.drive (encode i)) :=
  step_of_decode (decode_encodeBytes i)

/-- Settles O3: the lanes decode to what the step runs; the premise on well-formedness is not needed. -/
theorem stepRunsTheDecodedInstruction : Obligations.StepRunsTheDecodedInstruction := by
  unfold Obligations.StepRunsTheDecodedInstruction
  intro s i hdecode _
  exact step_of_decode hdecode

/-- Settles O12: presenting an encoded instruction drives its word, and the step decodes it again. -/
theorem presentedInstructionRunsNext : Obligations.PresentedInstructionRunsNext := by
  unfold Obligations.PresentedInstructionRunsNext
  intro s i
  rw [withFetchWord_toNat]
  exact ⟨State.drive_color32_i s _, State.drive_color16_o s _, step_drive_encode s i⟩

end Sys2Proof.Machine

namespace Sys2Proof.Machine

/-! SUPPORT. Listings (30_encoding.md R45, R46): the word of a line in either spelling, and the words of a listing as
those of its lines. -/

theorem ofNat_channels (a b g r : Byte) :
    BitVec.ofNat 32 (r.toNat + g.toNat * 2 ^ 8 + b.toNat * 2 ^ 16 + a.toNat * 2 ^ 24) = wordOfChannels a b g r := by
  rw [← wordOfChannels_toNat, BitVec.ofNat_toNat, BitVec.setWidth_eq]

/-- The tuple spelling of four bytes. -/
theorem toWord_tuple_bytes (a b g r : Byte) :
    (ListingLine.tuple (some r.toNat) (some g.toNat) (some b.toNat) (some a.toNat)).toWord =
      some (wordOfChannels a b g r) := by
  rw [ListingLine.toWord, if_pos ⟨r.isLt, g.isLt, b.isLt, a.isLt⟩, ofNat_channels]

/-- The word spelling of four bytes. -/
theorem toWord_word_bytes (a b g r : Byte) :
    (ListingLine.word (r.toNat + g.toNat * 2 ^ 8 + b.toNat * 2 ^ 16 + a.toNat * 2 ^ 24)).toWord =
      some (wordOfChannels a b g r) := by
  have hfits := (wordOfChannels a b g r).isLt
  rw [wordOfChannels_toNat] at hfits
  rw [ListingLine.toWord, if_pos hfits, ofNat_channels]

/-- A line has a word exactly if it is well formed: a word line if the number fits, a tuple line if each of its four
operands is there and fits; with one left out it has none. -/
theorem toWord_isSome (l : ListingLine) : l.toWord.isSome = l.wellFormed := by
  match l with
  | .word w =>
    rw [Bool.eq_iff_iff]
    simp [ListingLine.toWord, ListingLine.wellFormed]
  | .tuple (some r) (some g) (some b) (some a) =>
    rw [Bool.eq_iff_iff]
    simp [ListingLine.toWord, ListingLine.wellFormed, ListingLine.byteOk, and_assoc]
  | .tuple none _ _ _ | .tuple (some _) none _ _ | .tuple (some _) (some _) none _
  | .tuple (some _) (some _) (some _) none =>
    simp [ListingLine.toWord, ListingLine.wellFormed, ListingLine.byteOk]

theorem exists_toWord_iff (l : ListingLine) : (∃ w, l.toWord = some w) ↔ l.wellFormed = true := by
  rw [← toWord_isSome, Option.isSome_iff_exists]

theorem toWords_cons_eq_some_iff (l : ListingLine) (ls : Listing) (ws : List Packed32Color) :
    Listing.toWords (l :: ls) = some ws ↔
      ∃ w ws', l.toWord = some w ∧ Listing.toWords ls = some ws' ∧ ws = w :: ws' := by
  rw [Listing.toWords]
  cases l.toWord <;> cases Listing.toWords ls <;> simp [eq_comm]

/-- The words of a listing are those of its lines, line by line. -/
theorem toWords_eq_some_iff (ls : Listing) (ws : List Packed32Color) :
    ls.toWords = some ws ↔ ls.map ListingLine.toWord = ws.map some := by
  induction ls generalizing ws with
  | nil => cases ws <;> simp [Listing.toWords]
  | cons l ls ih =>
    rw [toWords_cons_eq_some_iff]
    cases ws with
    | nil => simp
    | cons w ws => simp [ih]

theorem exists_toWords_iff (ls : Listing) : (∃ ws, ls.toWords = some ws) ↔ ∀ l ∈ ls, l.wellFormed = true := by
  induction ls with
  | nil => simp [Listing.toWords]
  | cons l ls ih =>
    rw [List.forall_mem_cons, ← ih, ← exists_toWord_iff]
    simp only [toWords_cons_eq_some_iff]
    constructor
    · rintro ⟨_, w, ws, hl, hls, -⟩
      exact ⟨⟨w, hl⟩, ws, hls⟩
    · rintro ⟨⟨w, hl⟩, ws, hls⟩
      exact ⟨_, w, ws, hl, hls, rfl⟩

theorem toWords_length {ls : Listing} {ws : List Packed32Color} (h : ls.toWords = some ws) :
    ws.length = ls.length := by
  have hlines := congrArg List.length ((toWords_eq_some_iff ls ws).mp h)
  rw [List.length_map, List.length_map] at hlines
  exact hlines.symm

theorem toWords_getElem? {ls : Listing} {ws : List Packed32Color} (h : ls.toWords = some ws) {k : Nat}
    {l : ListingLine} (hk : ls[k]? = some l) : ws[k]? = l.toWord := by
  have hline := congrArg (·[k]?) ((toWords_eq_some_iff ls ws).mp h)
  simp only [List.getElem?_map, hk, Option.map_some] at hline
  obtain ⟨w, hw, hword⟩ := Option.map_eq_some_iff.mp hline.symm
  rw [hw, hword]

/-- Settles O17: a line by its spelling, a listing by its lines. -/
theorem listingSpellingsAgree : Obligations.ListingSpellingsAgree := by
  unfold Obligations.ListingSpellingsAgree
  refine ⟨exists_toWord_iff, ?_, exists_toWords_iff, ?_⟩
  · intro a b g r
    exact ⟨toWord_tuple_bytes a b g r, toWord_word_bytes a b g r, laneBytes_wordOfChannels a b g r⟩
  · intro ls ws hwords
    exact ⟨toWords_length hwords, fun k l => toWords_getElem? hwords⟩

end Sys2Proof.Machine

namespace Sys2Proof.Machine

/-! SUPPORT. PACK as OR and as sum (30_encoding.md R38), the bits CONVERT does not look at (R41), and a word for every
result (R42). -/

theorem convert_wordOfChannels (a b g r : Byte) : convert (wordOfChannels a b g r) = pack (truncate r g b) := by
  rw [convert, extract_wordOfChannels]

theorem pack_eq_add (f : Fields) :
    pack f = (f.r5.setWidth 16 <<< 11) + (f.g6.setWidth 16 <<< 5) + f.b5.setWidth 16 := by
  have hr := f.r5.isLt; have hg := f.g6.isLt; have hb := f.b5.isLt
  apply BitVec.eq_of_toNat_eq
  simp only [pack_toNat, BitVec.toNat_add, BitVec.toNat_shiftLeft, BitVec.toNat_setWidth, Nat.shiftLeft_eq]
  omega

theorem pack_eq_or (f : Fields) :
    pack f = (f.r5.setWidth 16 <<< 11) ||| (f.g6.setWidth 16 <<< 5) ||| f.b5.setWidth 16 := by
  apply BitVec.eq_of_getLsbD_eq
  intro k hk
  simp only [pack_getLsbD, BitVec.getLsbD_or, BitVec.getLsbD_shiftLeft, BitVec.getLsbD_setWidth]
  by_cases hblue : k < 5
  · have : k < 11 := by omega
    simp [hblue, hk, this]
  · have hb : f.b5.getLsbD k = false := BitVec.getLsbD_of_ge _ _ (by omega)
    by_cases hgreen : k < 11
    · have : k - 5 < 16 := by omega
      simp [hblue, hgreen, hk, hb, this]
    · have hg : f.g6.getLsbD (k - 5) = false := BitVec.getLsbD_of_ge _ _ (by omega)
      have : k - 11 < 16 := by omega
      simp [hblue, hgreen, hk, hb, hg, this]

/-- Settles O2: exec converts the word of its operands, which PACK puts together; OR and sum are PACK's own. -/
theorem execConvertCompletesWithPackedFields : Obligations.ExecConvertCompletesWithPackedFields := by
  unfold Obligations.ExecConvertCompletesWithPackedFields
  intro a b g r s
  refine ⟨?_, pack_eq_or (truncate r g b), pack_eq_add (truncate r g b)⟩
  rw [exec_convert, convert_wordOfChannels]
  rfl

/-- The wires that reach the output are none of the dropped ones (40_convert.md R58). -/
theorem wireSource_not_dropped {k : Nat} (hk : k < 16) :
    wireSource k < 32 ∧ ¬ (24 ≤ wireSource k ∨ (16 ≤ wireSource k ∧ wireSource k ≤ 18) ∨
      (8 ≤ wireSource k ∧ wireSource k ≤ 9) ∨ wireSource k ≤ 2) := by
  unfold wireSource
  split
  · omega
  · split <;> omega

theorem convert_congr_of_wires {c c' : Packed32Color}
    (h : ∀ k, k < 16 → c.getLsbD (wireSource k) = c'.getLsbD (wireSource k)) : convert c = convert c' := by
  refine BitVec.eq_of_getLsbD_eq fun k hk => ?_
  rw [convert_getLsbD c hk, convert_getLsbD c' hk, h k hk]

/-- Settles O36: the two words agree on every wire that the output copies. -/
theorem droppedBitsAreDontCare : Obligations.DroppedBitsAreDontCare := by
  unfold Obligations.DroppedBitsAreDontCare
  intro s c hagree
  refine ⟨_, _, step_eq s, step_eq (s.drive c), convert_congr_of_wires fun k hk => ?_⟩
  obtain ⟨hlt, hkept⟩ := wireSource_not_dropped hk
  exact hagree _ hlt hkept

/-- A word whose channels carry the given fields, the dropped bits zero. -/
def wordOfFields (f : Fields) : Packed32Color :=
  wordOfChannels 0#8 (f.b5 ++ 0#3) (f.g6 ++ 0#2) (f.r5 ++ 0#3)

/-- The fields of a result (30_encoding.md R35). -/
def fieldsOf (y : Packed16Color) : Fields :=
  { r5 := y.extractLsb' 11 5, g6 := y.extractLsb' 5 6, b5 := y.extractLsb' 0 5 }

theorem truncate_append_zeros (f : Fields) : truncate (f.r5 ++ 0#3) (f.g6 ++ 0#2) (f.b5 ++ 0#3) = f := by
  rw [truncate_eq_slices]
  congr 1
  · exact BitVec.extractLsb'_append_eq_left
  · exact BitVec.extractLsb'_append_eq_left
  · exact BitVec.extractLsb'_append_eq_left

theorem convert_wordOfFields (f : Fields) : convert (wordOfFields f) = pack f := by
  rw [wordOfFields, convert_wordOfChannels, truncate_append_zeros]

theorem pack_fieldsOf (y : Packed16Color) : pack (fieldsOf y) = y := by
  have := y.isLt
  apply BitVec.eq_of_toNat_eq
  rw [pack_toNat]
  simp only [fieldsOf, BitVec.extractLsb'_toNat, Nat.shiftRight_eq_div_pow]
  omega

theorem convert_surjective : Function.Surjective convert := fun y =>
  ⟨wordOfFields (fieldsOf y), by rw [convert_wordOfFields, pack_fieldsOf]⟩

/-- Settles O35: the evaluation answers `CONVERT` of its word from every state, `CONVERT` is onto, and both black words
convert to zero. -/
theorem everyResultValueOccurs : Obligations.EveryResultValueOccurs := by
  unfold Obligations.EveryResultValueOccurs
  constructor
  · intro y s
    obtain ⟨c, rfl⟩ := convert_surjective y
    exact ⟨c, _, evaluate_eq c s, rfl⟩
  · intro s
    have hopaque : convert 0xFF000000#32 = 0x0000#16 := by decide
    exact ⟨_, _, evaluate_eq _ s, evaluate_eq _ s, hopaque, convert_zero⟩

end Sys2Proof.Machine

namespace Sys2Proof.Machine

/-! SUPPORT. Settled states are the fixed points of the step, and every run of at least one step ends in the one that
its first step answers (40_convert.md R58, 10_state.md R14). -/

/-- A step ends settled, whatever stood on the output before it. -/
theorem settled_driveColor16_convert (s : State) : Settled (s.driveColor16 (convert s.color32_i)) :=
  (settled_iff _).mpr rfl

/-- Driving the output with the value it has changes nothing. -/
@[simp] theorem State.driveColor16_self (s : State) : s.driveColor16 s.color16_o = s := rfl

theorem settled_iff_step_eq_self (s : State) : Settled s ↔ step s = .next s := by
  rw [settled_iff, step_eq]
  constructor
  · intro hout
    rw [← hout, State.driveColor16_self]
  · intro hfixed
    exact congrArg State.color16_o (Host.Outcome.next.inj hfixed).symm

/-- The first step of a run, then the rest of it. -/
theorem core_run_succ {s t : State} (k : Nat) (h : step s = .next t) :
    Host.Core.run core (k + 1) s = Host.Core.run core k t := by
  simp only [Host.Core.run, core, h]

/-- A settled state stays where it is along every run. -/
theorem core_run_of_settled {s : State} (h : Settled s) (k : Nat) : Host.Core.run core k s = .next s := by
  induction k with
  | zero => rfl
  | succ k ih => rw [core_run_succ k ((settled_iff_step_eq_self s).mp h), ih]

/-- Settles O8: the first step of a run ends settled, and the settled states are the fixed points of the step. -/
theorem everyStepSettlesAndKeepsSettled : Obligations.EveryStepSettlesAndKeepsSettled := by
  unfold Obligations.EveryStepSettlesAndKeepsSettled
  refine ⟨?_, settled_iff_step_eq_self, ?_⟩
  · intro s t hstep
    rw [step_eq] at hstep
    obtain rfl := Host.Outcome.next.inj hstep
    exact ⟨settled_driveColor16_convert s, rfl⟩
  · intro k s
    have hsettled := settled_driveColor16_convert s
    exact ⟨_, (core_run_succ k (step_eq s)).trans (core_run_of_settled hsettled k), hsettled, rfl⟩

end Sys2Proof.Machine

namespace Sys2Proof.Machine

/-! SUPPORT. The last word presented alone decides the state a list ends in (40_convert.md R54, R62). -/

theorem present_concat (before : List Packed32Color) (x : Packed32Color) (s : State) :
    present (before ++ [x]) s =
      .next ({ color32_i := x, color16_o := convert x }, before.map convert ++ [convert x]) := by
  rw [present_eq, List.foldl_concat, settle_drive, List.map_append, List.map_singleton]

/-- Settles O6: both lists end with the same word, and that word alone decides the end state and the last output. -/
theorem sameWordSameOutputWhateverCameBefore : Obligations.SameWordSameOutputWhateverCameBefore := by
  unfold Obligations.SameWordSameOutputWhateverCameBefore
  intro x before before' s s'
  exact ⟨_, _, _, _, present_concat before x s, present_concat before' x s', rfl, List.getLast?_concat,
    List.getLast?_concat⟩

/-- Settles O37: the outputs are the map of `convert`; the end state is `s` for the empty list, and otherwise the one
its last word leaves. -/
theorem sequenceOfEvaluationsIsTheMap : Obligations.SequenceOfEvaluationsIsTheMap := by
  unfold Obligations.SequenceOfEvaluationsIsTheMap
  intro cs s
  refine ⟨_, present_eq cs s, ?_, ?_⟩
  · rintro rfl
    rfl
  · intro c hlast
    obtain ⟨before, rfl⟩ := List.getLast?_eq_some_iff.mp hlast
    rw [List.foldl_concat, settle_drive]

end Sys2Proof.Machine

namespace Sys2Proof.Machine

/-! SUPPORT. EXTRACT (40_convert.md R48): a lane by shift and mask, and the word the lanes give back. -/

theorem byteLane_eq_shift_mask (c : Packed32Color) (k : Nat) :
    byteLane c k = ((c >>> (8 * k)) &&& 0xFF#32).setWidth 8 := by
  apply BitVec.eq_of_toNat_eq
  rw [byteLane_toNat, BitVec.toNat_setWidth, BitVec.toNat_and, BitVec.toNat_ushiftRight, Nat.shiftRight_eq_div_pow]
  exact (Nat.mod_mod _ _).symm.trans (congrArg (· % 256) (Nat.and_two_pow_sub_one_eq_mod _ 8).symm)

/-- The word whose lanes EXTRACT yields. -/
theorem wordOfChannels_extract (c : Packed32Color) :
    wordOfChannels (extract c).a8 (extract c).b8 (extract c).g8 (extract c).r8 = c :=
  wordOfChannels_lanes c

theorem extract_injective : Function.Injective extract := by
  intro c c' h
  rw [← wordOfChannels_extract c, h, wordOfChannels_extract]

/-- Settles O20: each output is a byte lane, which is a slice and a shifted and masked word; the four lanes give the
word back. -/
theorem extractStageLosesNothing : Obligations.ExtractStageLosesNothing := by
  unfold Obligations.ExtractStageLosesNothing
  refine ⟨?_, extract_injective, by decide⟩
  intro c
  refine ⟨byteLane_eq_shift_mask c 0, byteLane_eq_slice c 0, byteLane_eq_shift_mask c 1, byteLane_eq_slice c 1,
    byteLane_eq_shift_mask c 2, byteLane_eq_slice c 2, byteLane_eq_shift_mask c 3, byteLane_eq_slice c 3, ?_⟩
  rw [← wordOfChannels_toNat, wordOfChannels_extract]

end Sys2Proof.Machine

namespace Sys2Proof.Machine

/-! SUPPORT. TRUNCATE (40_convert.md R49): the fields depend on the shifted channels only. -/

theorem truncate_congr_of_shifts {r8 g8 b8 r8' g8' b8' : Byte} (hr : r8 >>> 3 = r8' >>> 3) (hg : g8 >>> 2 = g8' >>> 2)
    (hb : b8 >>> 3 = b8' >>> 3) : truncate r8 g8 b8 = truncate r8' g8' b8' := by
  rw [truncate, truncate, hr, hg, hb]

/-- A right shift by `s` does not look at the `s` low bits, whatever `low` puts there. -/
theorem ushiftRight_of_low_replaced {s low : Nat} (v : Byte) (h : low < 2 ^ s) :
    ((v >>> s <<< s) ||| BitVec.ofNat 8 low) >>> s = v >>> s := by
  apply BitVec.eq_of_getLsbD_eq
  intro i _
  have hlow : low.testBit (s + i) = false :=
    Nat.testBit_lt_two_pow (h.trans_le (Nat.pow_le_pow_right (by decide) (Nat.le_add_right s i)))
  simp only [BitVec.getLsbD_ushiftRight, BitVec.getLsbD_or, BitVec.getLsbD_shiftLeft, BitVec.getLsbD_ofNat, hlow,
    Bool.and_false, Bool.or_false, Nat.add_sub_cancel_left]
  by_cases hinside : s + i < 8
  · simp [hinside]
  · have htop : v.getLsbD (s + i) = false := BitVec.getLsbD_of_ge _ _ (by omega)
    simp [htop]

/-- Settles O21: the fields as shifts by definition, as slices and as floors by their lemmas; replaced low bits are
shifted out. -/
theorem truncateStageDropsLowBits : Obligations.TruncateStageDropsLowBits := by
  unfold Obligations.TruncateStageDropsLowBits
  refine ⟨?_, ?_, by decide⟩
  · intro r8 g8 b8
    have hslices := truncate_eq_slices r8 g8 b8
    exact ⟨rfl, congrArg Fields.r5 hslices, truncate_r5_toNat r8 g8 b8, rfl, congrArg Fields.g6 hslices,
      truncate_g6_toNat r8 g8 b8, rfl, congrArg Fields.b5 hslices, truncate_b5_toNat r8 g8 b8⟩
  · intro r8 g8 b8 r g b hr hg hb
    exact truncate_congr_of_shifts (ushiftRight_of_low_replaced r8 hr) (ushiftRight_of_low_replaced g8 hg)
      (ushiftRight_of_low_replaced b8 hb)

end Sys2Proof.Machine

namespace Sys2Proof.Machine

/-! SUPPORT. PACK (40_convert.md R50, R57): the shifted fields occupy disjoint wires, so OR, XOR and sum agree; and the
fields are read back off the result. -/

/-- Fields of a result placed at bits that do not overlap have no wire in common. -/
theorem placed_and_eq_zero {n m s t : Nat} (x : BitVec n) (y : BitVec m) (h : t + m ≤ s) :
    (x.setWidth 16 <<< s) &&& (y.setWidth 16 <<< t) = 0#16 := by
  apply BitVec.eq_of_getLsbD_eq
  intro k _
  simp only [BitVec.getLsbD_and, BitVec.getLsbD_shiftLeft, BitVec.getLsbD_setWidth, BitVec.getLsbD_zero]
  by_cases hbelow : k < s
  · simp [hbelow]
  · have hy : y.getLsbD (k - t) = false := BitVec.getLsbD_of_ge _ _ (by omega)
    simp [hy]

theorem xor_eq_or_of_and_eq_zero {w : Nat} {x y : BitVec w} (h : x &&& y = 0#w) : x ^^^ y = x ||| y := by
  apply BitVec.eq_of_getLsbD_eq
  intro k _
  have hbit := congrArg (BitVec.getLsbD · k) h
  simp only [BitVec.getLsbD_and, BitVec.getLsbD_zero] at hbit
  rw [BitVec.getLsbD_xor, BitVec.getLsbD_or]
  cases hx : x.getLsbD k <;> simp_all

theorem placed_red_green_disjoint (f : Fields) : (f.r5.setWidth 16 <<< 11) &&& (f.g6.setWidth 16 <<< 5) = 0#16 :=
  placed_and_eq_zero f.r5 f.g6 (by decide)

theorem placed_red_blue_disjoint (f : Fields) : (f.r5.setWidth 16 <<< 11) &&& f.b5.setWidth 16 = 0#16 := by
  simpa using placed_and_eq_zero (t := 0) (s := 11) f.r5 f.b5 (by decide)

theorem placed_green_blue_disjoint (f : Fields) : (f.g6.setWidth 16 <<< 5) &&& f.b5.setWidth 16 = 0#16 := by
  simpa using placed_and_eq_zero (t := 0) (s := 5) f.g6 f.b5 (by decide)

theorem pack_eq_xor (f : Fields) :
    pack f = (f.r5.setWidth 16 <<< 11) ^^^ (f.g6.setWidth 16 <<< 5) ^^^ f.b5.setWidth 16 := by
  have hblue : ((f.r5.setWidth 16 <<< 11) ||| (f.g6.setWidth 16 <<< 5)) &&& f.b5.setWidth 16 = 0#16 := by
    rw [BitVec.and_comm, BitVec.and_or_distrib_left, BitVec.and_comm, placed_red_blue_disjoint, BitVec.and_comm,
      placed_green_blue_disjoint, BitVec.or_zero]
  rw [xor_eq_or_of_and_eq_zero (placed_red_green_disjoint f), xor_eq_or_of_and_eq_zero hblue, pack_eq_or]

theorem fieldsOf_pack (f : Fields) : fieldsOf (pack f) = f := by
  have hr := f.r5.isLt; have hg := f.g6.isLt; have hb := f.b5.isLt
  cases f with
  | mk r5 g6 b5 =>
    simp only [fieldsOf, Fields.mk.injEq]
    refine ⟨?_, ?_, ?_⟩ <;> apply BitVec.eq_of_toNat_eq <;>
      simp only [BitVec.extractLsb'_toNat, pack_toNat, Nat.shiftRight_eq_div_pow] <;> omega

theorem pack_bijective : Function.Bijective pack :=
  Function.bijective_iff_has_inverse.mpr ⟨fieldsOf, fieldsOf_pack, pack_fieldsOf⟩

/-- Settles O22: the fields share no wire, so concatenation, OR, XOR and sum are one value; the fields read off a
result are the inverse of PACK. -/
theorem packStageIsBijective : Obligations.PackStageIsBijective := by
  unfold Obligations.PackStageIsBijective
  exact ⟨fun f => ⟨rfl, pack_eq_or f, pack_eq_xor f, pack_eq_add f, pack_toNat f⟩, pack_bijective, by decide,
    fun _ => rfl⟩

/-- A field placed within 16 bits keeps its value. -/
theorem placed_toNat {n : Nat} (x : BitVec n) {s : Nat} (h : n + s ≤ 16) :
    (x.setWidth 16 <<< s).toNat = x.toNat * 2 ^ s := by
  have hfits : x.toNat * 2 ^ s < 2 ^ 16 :=
    calc x.toNat * 2 ^ s < 2 ^ n * 2 ^ s := Nat.mul_lt_mul_of_pos_right x.isLt (by positivity)
      _ = 2 ^ (n + s) := (Nat.pow_add 2 n s).symm
      _ ≤ 2 ^ 16 := Nat.pow_le_pow_right (by decide) h
  rw [BitVec.toNat_shiftLeft, BitVec.toNat_setWidth_of_le (by omega), Nat.shiftLeft_eq, Nat.mod_eq_of_lt hfits]

/-- `CONVERT` as a number, from the three channels as slices of the word (40_convert.md R47). -/
theorem convert_toNat_of_slices (c : Packed32Color) :
    (convert c).toNat = (c.extractLsb' 0 8).toNat / 8 * 2048 + (c.extractLsb' 8 8).toNat / 4 * 32
      + (c.extractLsb' 16 8).toNat / 8 := by
  rw [convert, pack_toNat, truncate_r5_toNat, truncate_g6_toNat, truncate_b5_toNat]
  rfl

/-- The low bits of a slice are its remainder. -/
theorem slice_low_toNat {w : Nat} (x : BitVec w) (s : Nat) {n j : Nat} (h : j ≤ n) :
    (x.extractLsb' s j).toNat = (x.extractLsb' s n).toNat % 2 ^ j := by
  rw [BitVec.extractLsb'_toNat, BitVec.extractLsb'_toNat, Nat.mod_mod_of_dvd _ (Nat.pow_dvd_pow 2 h)]

/-- Settles O25: each field fits above the ones below it; and dividing a result gives the fields back, whose channels
they are but for the remainders. -/
theorem packingNeverOverflowsOrCarries : Obligations.PackingNeverOverflowsOrCarries := by
  unfold Obligations.PackingNeverOverflowsOrCarries
  constructor
  · intro f
    have hr := f.r5.isLt; have hg := f.g6.isLt; have hb := f.b5.isLt
    refine ⟨placed_toNat f.r5 (by decide), by omega, placed_toNat f.g6 (by decide), by omega,
      placed_red_green_disjoint f, placed_red_blue_disjoint f, placed_green_blue_disjoint f, by omega⟩
  · intro c
    have hresult := convert_toNat_of_slices c
    have hr := (c.extractLsb' 0 8).isLt; have hg := (c.extractLsb' 8 8).isLt; have hb := (c.extractLsb' 16 8).isLt
    have hlowRed := slice_low_toNat c 0 (n := 8) (j := 3) (by decide)
    have hlowGreen := slice_low_toNat c 8 (n := 8) (j := 2) (by decide)
    have hlowBlue := slice_low_toNat c 16 (n := 8) (j := 3) (by decide)
    refine ⟨?_, ?_, ?_⟩ <;> omega

end Sys2Proof.Machine

namespace Sys2Proof.Machine

/-! SUPPORT. The fields of a conversion: each is a slice of the word, inside one channel (40_convert.md R56, R58, R59),
and the fields determine the result. -/

theorem fieldsOf_convert (c : Packed32Color) :
    fieldsOf (convert c) = truncate (c.extractLsb' 0 8) (c.extractLsb' 8 8) (c.extractLsb' 16 8) :=
  fieldsOf_pack _

theorem redField_convert (c : Packed32Color) : (convert c).extractLsb' 11 5 = (c.extractLsb' 0 8 >>> 3).setWidth 5 :=
  congrArg Fields.r5 (fieldsOf_convert c)

theorem greenField_convert (c : Packed32Color) : (convert c).extractLsb' 5 6 = (c.extractLsb' 8 8 >>> 2).setWidth 6 :=
  congrArg Fields.g6 (fieldsOf_convert c)

theorem blueField_convert (c : Packed32Color) : (convert c).extractLsb' 0 5 = (c.extractLsb' 16 8 >>> 3).setWidth 5 :=
  congrArg Fields.b5 (fieldsOf_convert c)

/-- The three fields, as slices of the word (40_convert.md R58). -/
theorem fieldsOf_convert_eq_slices (c : Packed32Color) :
    fieldsOf (convert c) = { r5 := c.extractLsb' 3 5, g6 := c.extractLsb' 10 6, b5 := c.extractLsb' 19 5 } := by
  rw [fieldsOf_convert, truncate_eq_slices, slice_of_slice c 0 (by decide), slice_of_slice c 8 (by decide),
    slice_of_slice c 16 (by decide)]

/-- Settles O27: the field is a function of the channel's slice. -/
theorem eachFieldDependsOnOneChannel : Obligations.EachFieldDependsOnOneChannel := by
  unfold Obligations.EachFieldDependsOnOneChannel
  intro x x'
  refine ⟨fun hred => ?_, fun hgreen => ?_, fun hblue => ?_⟩
  · rw [redField_convert, redField_convert, hred]
  · rw [greenField_convert, greenField_convert, hgreen]
  · rw [blueField_convert, blueField_convert, hblue]

theorem fieldsOf_injective : Function.Injective fieldsOf := fun y y' h => by
  rw [← pack_fieldsOf y, h, pack_fieldsOf]

/-- A channel shifted right until `n` bits are left fits a field of `n` bits, so widening the field back loses
nothing. -/
theorem setWidth_eq_ushiftRight_iff {n s : Nat} (h : n + s = 8) (y : BitVec n) (v : Byte) :
    y.setWidth 8 = v >>> s ↔ y = (v >>> s).setWidth n := by
  have hn : n ≤ 8 := by omega
  constructor
  · intro hwide
    rw [← hwide, BitVec.setWidth_setWidth_of_le y hn, BitVec.setWidth_eq]
  · rintro rfl
    apply BitVec.eq_of_getLsbD_eq
    intro k hk
    rw [BitVec.getLsbD_setWidth, BitVec.getLsbD_setWidth, BitVec.getLsbD_ushiftRight]
    by_cases hfield : k < n
    · simp [hk, hfield]
    · have htop : v.getLsbD (s + k) = false := BitVec.getLsbD_of_ge _ _ (by omega)
      simp [htop]

/-- The channel truncation law at one word says that the word is converted (40_convert.md R56). -/
theorem channelTruncationLaw_iff (x : Packed32Color) (y : Packed16Color) :
    ((y.extractLsb' 11 5).setWidth 8 = x.extractLsb' 0 8 >>> 3 ∧
      (y.extractLsb' 5 6).setWidth 8 = x.extractLsb' 8 8 >>> 2 ∧
      (y.extractLsb' 0 5).setWidth 8 = x.extractLsb' 16 8 >>> 3) ↔ y = convert x := by
  rw [setWidth_eq_ushiftRight_iff rfl, setWidth_eq_ushiftRight_iff rfl, setWidth_eq_ushiftRight_iff rfl,
    ← fieldsOf_injective.eq_iff, fieldsOf_convert, fieldsOf, truncate, Fields.mk.injEq]

/-- Settles O24: the law says at every word that the function converts it. -/
theorem channelTruncationLawCharacterisesConvert : Obligations.ChannelTruncationLawCharacterisesConvert := by
  unfold Obligations.ChannelTruncationLawCharacterisesConvert
  intro f
  simp only [channelTruncationLaw_iff]
  exact funext_iff.symm

/-- A field is zero while its channel is below the first step (40_convert.md R47). -/
theorem truncatedField_eq_zero {n s : Nat} {v : Byte} (h : v.toNat < 2 ^ s) : (v >>> s).setWidth n = 0#n := by
  apply BitVec.eq_of_toNat_eq
  rw [BitVec.toNat_setWidth, BitVec.toNat_ushiftRight, Nat.shiftRight_eq_div_pow, Nat.div_eq_of_lt h]
  rfl

/-- Settles O1: the step drives `CONVERT` of its input, whose fields are the truncated channels; the printed words are
evaluated. -/
theorem stepEvaluatesConvert : Obligations.StepEvaluatesConvert := by
  unfold Obligations.StepEvaluatesConvert
  refine ⟨?_, by decide⟩
  intro s r8 g8 b8
  refine ⟨_, step_eq s, rfl, rfl, rfl, convert_toNat_of_slices _, fun hred => ?_, fun hgreen => ?_, fun hblue => ?_,
    fun htop => ?_⟩
  · exact (redField_convert _).trans (truncatedField_eq_zero hred)
  · exact (greenField_convert _).trans (truncatedField_eq_zero hgreen)
  · exact (blueField_convert _).trans (truncatedField_eq_zero hblue)
  · refine (redField_convert _).trans ?_
    obtain hlow | hhigh := htop
    · exact congrArg (fun v : Byte => (v >>> 3).setWidth 5) hlow
    · exact congrArg (fun v : Byte => (v >>> 3).setWidth 5) hhigh

end Sys2Proof.Machine

namespace Sys2Proof.Machine

/-! SUPPORT. The bit map (40_convert.md R58): the wires that are used and dropped, the masks, and what agreeing on the
used wires means. -/

/-- The dropped wires, read off the mask. -/
theorem droppedInputMask_getLsbD {j : Nat} (hj : j < 32) :
    Config.droppedInputMask.getLsbD j = true ↔ j ≤ 2 ∨ (8 ≤ j ∧ j ≤ 9) ∨ (16 ≤ j ∧ j ≤ 18) ∨ 24 ≤ j := by
  have table : ∀ i : Fin 32, Config.droppedInputMask.getLsbD i.val = true ↔
      i.val ≤ 2 ∨ (8 ≤ i.val ∧ i.val ≤ 9) ∨ (16 ≤ i.val ∧ i.val ≤ 18) ∨ 24 ≤ i.val := by decide
  exact table ⟨j, hj⟩

theorem usedInputMask_eq_not_droppedInputMask : Config.usedInputMask = ~~~Config.droppedInputMask := by decide

/-- The used wires are exactly those the bit map names. -/
theorem usedInputMask_getLsbD {j : Nat} (hj : j < 32) :
    Config.usedInputMask.getLsbD j = true ↔ ∃ k, k < 16 ∧ wireSource k = j := by
  have table : ∀ i : Fin 32, Config.usedInputMask.getLsbD i.val = true ↔ ∃ k, k < 16 ∧ wireSource k = i.val := by
    decide
  exact table ⟨j, hj⟩

theorem usedInputMask_wireSource {k : Nat} (hk : k < 16) : Config.usedInputMask.getLsbD (wireSource k) = true :=
  (usedInputMask_getLsbD (wireSource_not_dropped hk).1).mpr ⟨k, hk, rfl⟩

/-- Every mask that keeps the used wires keeps the conversion. -/
theorem convert_and_of_used {mask : Packed32Color} (h : ∀ k, k < 16 → mask.getLsbD (wireSource k) = true)
    (x : Packed32Color) : convert x = convert (x &&& mask) := by
  refine convert_congr_of_wires fun k hk => ?_
  rw [BitVec.getLsbD_and, h k hk, Bool.and_true]

/-- Settles O23: no output wire copies a wire of the top byte. -/
theorem alphaNeverReachesTheOutput : Obligations.AlphaNeverReachesTheOutput := by
  unfold Obligations.AlphaNeverReachesTheOutput
  refine ⟨?_, convert_and_of_used (by decide), by decide⟩
  intro x a
  refine convert_congr_of_wires fun k hk => ?_
  have hbelow : wireSource k < 24 := by
    have := wireSource_not_dropped hk
    omega
  rw [BitVec.getLsbD_append, if_pos hbelow, BitVec.getLsbD_extractLsb', decide_eq_true hbelow, Bool.true_and,
    Nat.zero_add]

/-- The three masks of the mask form, each keeping the wires of one field (41_strategies.md R76). -/
theorem fieldMasks_getLsbD (j : Nat) :
    (0x000000F8#32).getLsbD j = decide (3 ≤ j ∧ j < 8) ∧ (0x0000FC00#32).getLsbD j = decide (10 ≤ j ∧ j < 16) ∧
      (0x00F80000#32).getLsbD j = decide (19 ≤ j ∧ j < 24) := by
  by_cases hj : j < 32
  · have table : ∀ i : Fin 32, (0x000000F8#32).getLsbD i.val = decide (3 ≤ i.val ∧ i.val < 8) ∧
        (0x0000FC00#32).getLsbD i.val = decide (10 ≤ i.val ∧ i.val < 16) ∧
        (0x00F80000#32).getLsbD i.val = decide (19 ≤ i.val ∧ i.val < 24) := by decide
    exact table ⟨j, hj⟩
  · have habove : ¬ j < 8 ∧ ¬ j < 16 ∧ ¬ j < 24 := by omega
    simp [BitVec.getLsbD_of_ge _ _ (Nat.le_of_not_lt hj), habove]

/-- Each output wire of the mask form is the one of its field's mask that covers it (41_strategies.md R76). -/
theorem maskForm_getLsbD (x : Packed32Color) {k : Nat} (hk : k < 16) :
    (maskForm x).getLsbD k = x.getLsbD (wireSource k) := by
  obtain ⟨hred, -, -⟩ := fieldMasks_getLsbD (k - 8)
  obtain ⟨-, hgreen, -⟩ := fieldMasks_getLsbD (k + 5)
  obtain ⟨-, -, hblue⟩ := fieldMasks_getLsbD (k + 19)
  have hword : k < 32 := by omega
  simp only [maskForm, BitVec.getLsbD_setWidth, BitVec.getLsbD_or, BitVec.getLsbD_shiftLeft,
    BitVec.getLsbD_ushiftRight, BitVec.getLsbD_and, Nat.add_comm 5 k, Nat.add_comm 19 k, hred, hgreen, hblue, wireSource]
  by_cases hlow : k < 5
  · have hfields : k < 8 ∧ ¬ 10 ≤ k + 5 ∧ k + 19 < 24 := by omega
    simp [hlow, hk, hfields]
  · by_cases hmid : k < 11
    · have hfields : ¬ 3 ≤ k - 8 ∧ 10 ≤ k + 5 ∧ k + 5 < 16 ∧ ¬ k + 19 < 24 := by omega
      simp [hlow, hmid, hk, hfields]
    · have hfields : ¬ k < 8 ∧ 3 ≤ k - 8 ∧ k - 8 < 8 ∧ ¬ k + 5 < 16 ∧ ¬ k + 19 < 24 := by omega
      simp [hlow, hmid, hk, hword, hfields]

theorem convert_eq_maskForm (x : Packed32Color) : convert x = maskForm x := by
  refine BitVec.eq_of_getLsbD_eq fun k hk => ?_
  rw [convert_getLsbD x hk, maskForm_getLsbD x hk]

/-- Settles O26: the bit map wire by wire and slice by slice, the masks as its image and complement, and the two masked
forms by the wires they keep. -/
theorem outputBitsAreCopiesOfInputBits : Obligations.OutputBitsAreCopiesOfInputBits := by
  unfold Obligations.OutputBitsAreCopiesOfInputBits
  refine ⟨fun c k => convert_getLsbD c, ?_, ?_, ?_⟩
  · intro c
    have hfields := fieldsOf_convert_eq_slices c
    exact ⟨congrArg Fields.r5 hfields, congrArg Fields.g6 hfields, congrArg Fields.b5 hfields⟩
  · intro j hj
    refine ⟨droppedInputMask_getLsbD hj, usedInputMask_getLsbD hj, ?_⟩
    rw [usedInputMask_eq_not_droppedInputMask, BitVec.getLsbD_not, decide_eq_true hj, Bool.true_and]
  · exact fun x => ⟨convert_and_of_used (fun _ => usedInputMask_wireSource) x, convert_eq_maskForm x⟩

end Sys2Proof.Machine

namespace Sys2Proof.Machine

/-! SUPPORT. The preimages of a result (40_convert.md R60): a word is its fields and its sixteen dropped bits, and two
words convert alike exactly if they agree on the used wires. -/

/-- The dropped bits of a word: Alpha, and the low bits of Blue, Green and Red (40_convert.md R58). -/
abbrev DroppedBits := Byte × BitVec 3 × BitVec 2 × BitVec 3

def droppedOf (c : Packed32Color) : DroppedBits :=
  (byteLane c 3, (byteLane c 2).extractLsb' 0 3, (byteLane c 1).extractLsb' 0 2, (byteLane c 0).extractLsb' 0 3)

/-- The word with the given fields and dropped bits. -/
def wordOfParts (f : Fields) (d : DroppedBits) : Packed32Color :=
  wordOfChannels d.1 (f.b5 ++ d.2.1) (f.g6 ++ d.2.2.1) (f.r5 ++ d.2.2.2)

theorem convert_wordOfParts (f : Fields) (d : DroppedBits) : convert (wordOfParts f d) = pack f := by
  rw [wordOfParts, convert_wordOfChannels, truncate_eq_slices, BitVec.extractLsb'_append_eq_left,
    BitVec.extractLsb'_append_eq_left, BitVec.extractLsb'_append_eq_left]

theorem droppedOf_wordOfParts (f : Fields) (d : DroppedBits) : droppedOf (wordOfParts f d) = d := by
  obtain ⟨alpha, blue, green, red⟩ := d
  obtain ⟨hr, hg, hb, ha⟩ := byteLane_wordOfChannels alpha (f.b5 ++ blue) (f.g6 ++ green) (f.r5 ++ red)
  rw [droppedOf, wordOfParts, hr, hg, hb, ha, BitVec.extractLsb'_append_eq_right, BitVec.extractLsb'_append_eq_right,
    BitVec.extractLsb'_append_eq_right]

theorem channel_eq_field_append_low (v : Byte) :
    v.extractLsb' 3 5 ++ v.extractLsb' 0 3 = v ∧ v.extractLsb' 2 6 ++ v.extractLsb' 0 2 = v :=
  ⟨(BitVec.extractLsb'_append_extractLsb'_eq_extractLsb' rfl).trans BitVec.extractLsb'_eq_self,
    (BitVec.extractLsb'_append_extractLsb'_eq_extractLsb' rfl).trans BitVec.extractLsb'_eq_self⟩

/-- A word is put together again from its result and its dropped bits. -/
theorem wordOfParts_convert_droppedOf (c : Packed32Color) :
    wordOfParts (fieldsOf (convert c)) (droppedOf c) = c := by
  obtain ⟨hred, -⟩ := channel_eq_field_append_low (byteLane c 0)
  obtain ⟨-, hgreen⟩ := channel_eq_field_append_low (byteLane c 1)
  obtain ⟨hblue, -⟩ := channel_eq_field_append_low (byteLane c 2)
  have hfields : fieldsOf (convert c) = truncate (byteLane c 0) (byteLane c 1) (byteLane c 2) := fieldsOf_convert c
  rw [hfields, truncate_eq_slices, wordOfParts, droppedOf]
  simp only [hred, hgreen, hblue, wordOfChannels_lanes]

/-- The words that convert to `y` are given by their dropped bits. -/
def preimageEquivDroppedBits (y : Packed16Color) : { x : Packed32Color // convert x = y } ≃ DroppedBits where
  toFun x := droppedOf x.val
  invFun d := ⟨wordOfParts (fieldsOf y) d, by rw [convert_wordOfParts, pack_fieldsOf]⟩
  left_inv := by
    rintro ⟨x, rfl⟩
    exact Subtype.ext (wordOfParts_convert_droppedOf x)
  right_inv d := droppedOf_wordOfParts (fieldsOf y) d

theorem card_bitVec (n : Nat) : Nat.card (BitVec n) = 2 ^ n :=
  (Nat.card_congr BitVec.equivFin.toEquiv).trans (Nat.card_fin _)

theorem card_droppedBits : Nat.card DroppedBits = 2 ^ 16 := by
  simp only [DroppedBits, Nat.card_prod, card_bitVec]
  decide

/-- Fields moved to their places in a word, no dropped bit set, convert to their packing (40_convert.md R60). -/
theorem convert_placed_fields (f : Fields) :
    convert ((f.r5.setWidth 32 <<< 3) ||| (f.g6.setWidth 32 <<< 10) ||| (f.b5.setWidth 32 <<< 19)) = pack f := by
  refine BitVec.eq_of_getLsbD_eq fun k hk => ?_
  rw [convert_getLsbD _ hk, pack_getLsbD]
  simp only [wireSource, BitVec.getLsbD_or, BitVec.getLsbD_shiftLeft, BitVec.getLsbD_setWidth]
  by_cases hblue : k < 5
  · have hplace : k + 19 < 32 ∧ k < 32 := by omega
    simp [hblue, hplace]
  · by_cases hgreen : k < 11
    · have hr : f.r5.getLsbD (k + 2) = false := BitVec.getLsbD_of_ge _ _ (by omega)
      have hplace : k + 5 < 32 ∧ k + 5 < 19 ∧ ¬ k + 5 < 10 ∧ k + 5 - 10 = k - 5 ∧ k - 5 < 32 := by omega
      simp [hblue, hgreen, hr, hplace]
    · have hplace : k - 8 < 32 ∧ k - 8 < 10 ∧ k - 8 < 19 ∧ ¬ k - 8 < 3 ∧ k - 8 - 3 = k - 11 ∧ k - 11 < 32 := by omega
      simp [hblue, hgreen, hplace]

theorem convert_eq_iff_of_wires (x x' : Packed32Color) :
    convert x = convert x' ↔ ∀ k, k < 16 → x.getLsbD (wireSource k) = x'.getLsbD (wireSource k) := by
  constructor
  · intro h k hk
    rw [← convert_getLsbD x hk, h, convert_getLsbD x' hk]
  · exact convert_congr_of_wires

theorem and_usedInputMask_eq_iff_of_wires (x x' : Packed32Color) :
    x &&& Config.usedInputMask = x' &&& Config.usedInputMask ↔
      ∀ k, k < 16 → x.getLsbD (wireSource k) = x'.getLsbD (wireSource k) := by
  constructor
  · intro h k hk
    have hwire := congrArg (BitVec.getLsbD · (wireSource k)) h
    simpa only [BitVec.getLsbD_and, usedInputMask_wireSource hk, Bool.and_true] using hwire
  · intro h
    refine BitVec.eq_of_getLsbD_eq fun j hj => ?_
    rw [BitVec.getLsbD_and, BitVec.getLsbD_and]
    by_cases hused : Config.usedInputMask.getLsbD j = true
    · obtain ⟨k, hk, rfl⟩ := (usedInputMask_getLsbD hj).mp hused
      rw [h k hk]
    · rw [Bool.eq_false_iff.mpr hused, Bool.and_false, Bool.and_false]

/-- Settles O28: the preimage with no dropped bit set, the count by the dropped bits, the kernel by the used wires. -/
theorem everyOutputHas65536Preimages : Obligations.EveryOutputHas65536Preimages := by
  unfold Obligations.EveryOutputHas65536Preimages
  refine ⟨fun y => ?_, fun y => ?_, fun x x' => ?_⟩
  · exact (convert_placed_fields (fieldsOf y)).trans (pack_fieldsOf y)
  · exact (Nat.card_congr (preimageEquivDroppedBits y)).trans card_droppedBits
  · exact (convert_eq_iff_of_wires x x').trans (and_usedInputMask_eq_iff_of_wires x x').symm

end Sys2Proof.Machine

namespace Sys2Proof.Machine

/-! SUPPORT. Each field is a non-decreasing step function of its channel (40_convert.md R61), and PACK keeps the order
of fields. -/

/-- Fields that rise together give results that rise (95_test_vectors.md Q7). -/
theorem pack_mono {f f' : Fields} (hr : f.r5 ≤ f'.r5) (hg : f.g6 ≤ f'.g6) (hb : f.b5 ≤ f'.b5) : pack f ≤ pack f' := by
  rw [BitVec.le_def] at hr hg hb ⊢
  rw [pack_toNat, pack_toNat]
  omega

theorem truncate_mono {r8 g8 b8 r8' g8' b8' : Byte} (hr : r8 ≤ r8') (hg : g8 ≤ g8') (hb : b8 ≤ b8') :
    (truncate r8 g8 b8).r5 ≤ (truncate r8' g8' b8').r5 ∧ (truncate r8 g8 b8).g6 ≤ (truncate r8' g8' b8').g6 ∧
      (truncate r8 g8 b8).b5 ≤ (truncate r8' g8' b8').b5 := by
  simp only [BitVec.le_def, truncate_r5_toNat, truncate_g6_toNat, truncate_b5_toNat] at hr hg hb ⊢
  exact ⟨Nat.div_le_div_right hr, Nat.div_le_div_right hg, Nat.div_le_div_right hb⟩

/-- Settles O30: truncation and packing both keep the order, channel by channel; alpha is dropped. -/
theorem outputIsMonotoneInEachChannel : Obligations.OutputIsMonotoneInEachChannel := by
  unfold Obligations.OutputIsMonotoneInEachChannel
  intro a b g r a' b' g' r' hb hg hr
  obtain ⟨hr5, hg6, hb5⟩ := truncate_mono hr hg hb
  rw [convert_wordOfChannels, convert_wordOfChannels]
  exact pack_mono hr5 hg6 hb5

theorem toNat_add_one_of_lt {v : Byte} (h : v.toNat < 255) : (v + 1#8).toNat = v.toNat + 1 :=
  BitVec.toNat_add_of_lt (Nat.succ_lt_succ h)

/-- Settles O29: as numbers the fields are quotients by 8 and 4, which rise, step up at the multiples, and are constant
on the buckets between them. -/
theorem fieldsAreMonotoneStepFunctions : Obligations.FieldsAreMonotoneStepFunctions := by
  unfold Obligations.FieldsAreMonotoneStepFunctions
  refine ⟨?_, ?_, ?_, by decide⟩
  · intro v v' g b hv
    obtain ⟨hr5, -, -⟩ := truncate_mono hv (BitVec.le_refl g) (BitVec.le_refl b)
    obtain ⟨-, hg6, -⟩ := truncate_mono (BitVec.le_refl b) hv (BitVec.le_refl g)
    obtain ⟨-, -, hb5⟩ := truncate_mono (BitVec.le_refl g) (BitVec.le_refl b) hv
    exact ⟨hr5, hg6, hb5⟩
  · intro v g b hv
    simp only [truncate_r5_toNat, truncate_g6_toNat, truncate_b5_toNat, toNat_add_one_of_lt hv]
    exact ⟨Nat.succ_div, Nat.succ_div, Nat.succ_div⟩
  · intro v k
    simp only [truncate_r5_toNat, truncate_g6_toNat, truncate_b5_toNat]
    omega

end Sys2Proof.Machine

namespace Sys2Proof.Machine

/-! SUPPORT. `CONVERT` commutes with OR and AND, and a function that commutes with OR is known from its values at the
single-bit words (95_test_vectors.md section 2.4). -/

theorem convert_or (x x' : Packed32Color) : convert (x ||| x') = convert x ||| convert x' := by
  refine BitVec.eq_of_getLsbD_eq fun k hk => ?_
  simp only [BitVec.getLsbD_or, convert_getLsbD _ hk]

theorem convert_and (x x' : Packed32Color) : convert (x &&& x') = convert x &&& convert x' := by
  refine BitVec.eq_of_getLsbD_eq fun k hk => ?_
  simp only [BitVec.getLsbD_and, convert_getLsbD _ hk]

theorem getLsbD_one_shiftLeft {w : Nat} (j i : Nat) :
    (1#w <<< j).getLsbD i = (decide (j < w) && decide (j = i)) := by
  rw [← BitVec.twoPow_eq, BitVec.getLsbD_twoPow]

/-- A set bit can be taken off a word and put back by OR. -/
theorem one_shiftLeft_or_clear {w : Nat} {x : BitVec w} {n : Nat} (h : x.getLsbD n = true) :
    (1#w <<< n) ||| (x &&& ~~~(1#w <<< n)) = x := by
  refine BitVec.eq_of_getLsbD_eq fun i hi => ?_
  simp only [BitVec.getLsbD_or, BitVec.getLsbD_and, BitVec.getLsbD_not, getLsbD_one_shiftLeft, hi]
  by_cases hni : n = i
  · subst hni
    simp [h, hi]
  · simp [hni]

/-- Two functions that commute with OR and agree at zero and at every single-bit word agree everywhere: every word is
the OR of its bits, taken off from the top. -/
theorem eq_of_or_of_single_bits {w v : Nat} {f g : BitVec w → BitVec v}
    (hf : ∀ x x', f (x ||| x') = f x ||| f x') (hg : ∀ x x', g (x ||| x') = g x ||| g x') (hzero : f 0#w = g 0#w)
    (hbit : ∀ j, j < w → f (1#w <<< j) = g (1#w <<< j)) : f = g := by
  have hlow : ∀ n x, (∀ i, n ≤ i → x.getLsbD i = false) → f x = g x := by
    intro n
    induction n with
    | zero =>
      intro x hx
      have : x = 0#w := BitVec.eq_of_getLsbD_eq fun i _ => by rw [hx i (Nat.zero_le i), BitVec.getLsbD_zero]
      rw [this, hzero]
    | succ n ih =>
      intro x hx
      by_cases hn : x.getLsbD n = true
      · have hrest : f (x &&& ~~~(1#w <<< n)) = g (x &&& ~~~(1#w <<< n)) := by
          refine ih _ fun i hi => ?_
          simp only [BitVec.getLsbD_and, BitVec.getLsbD_not, getLsbD_one_shiftLeft]
          obtain rfl | hlt := Nat.eq_or_lt_of_le hi
          · simp [BitVec.lt_of_getLsbD hn]
          · simp [hx i hlt]
        rw [← one_shiftLeft_or_clear hn, hf, hg, hbit n (BitVec.lt_of_getLsbD hn), hrest]
      · refine ih x fun i hi => ?_
        obtain rfl | hlt := Nat.eq_or_lt_of_le hi
        · exact Bool.eq_false_iff.mpr hn
        · exact hx i hlt
  exact funext fun x => hlow w x fun i hi => BitVec.getLsbD_of_ge x i hi

theorem convert_single_source {k : Nat} (hk : k < 16) : convert (1#32 <<< wireSource k) = 1#16 <<< k := by
  have table : ∀ i : Fin 16, convert (1#32 <<< wireSource i.val) = 1#16 <<< i.val := by decide
  exact table ⟨k, hk⟩

theorem convert_single_dropped {j : Nat} (hdropped : ∀ k, k < 16 → wireSource k ≠ j) :
    convert (1#32 <<< j) = 0#16 := by
  refine BitVec.eq_of_getLsbD_eq fun k hk => ?_
  rw [convert_getLsbD _ hk, getLsbD_one_shiftLeft, BitVec.getLsbD_zero, decide_eq_false (hdropped k hk).symm,
    Bool.and_false]

/-- Settles O31: OR and AND act wire by wire; the walking-one table fixes the value at every single-bit word, and at
zero because wire 0 is dropped. -/
theorem walkingOnesDetermineConvert : Obligations.WalkingOnesDetermineConvert := by
  unfold Obligations.WalkingOnesDetermineConvert
  refine ⟨fun x x' => ⟨convert_or x x', convert_and x x'⟩, ?_⟩
  intro f hor hsource hdropped
  have hbit : ∀ j, j < 32 → f (1#32 <<< j) = convert (1#32 <<< j) := by
    intro j hj
    by_cases hused : ∃ k, k < 16 ∧ wireSource k = j
    · obtain ⟨k, hk, rfl⟩ := hused
      rw [hsource k hk, convert_single_source hk]
    · have hnot : ∀ k, k < 16 → wireSource k ≠ j := fun k hk hkj => hused ⟨k, hk, hkj⟩
      rw [hdropped j hj hnot, convert_single_dropped hnot]
  have hwire0 : f (1#32 <<< 0) = 0#16 := hdropped 0 (by decide) (by decide)
  have hzero : f 0#32 = 0#16 := by
    have hor0 := hor 0#32 (1#32 <<< 0)
    rwa [BitVec.zero_or, hwire0, BitVec.or_zero, eq_comm] at hor0
  exact eq_of_or_of_single_bits hor convert_or (hzero.trans convert_zero.symm) hbit

end Sys2Proof.Machine

namespace Sys2Proof.Machine

/-! SUPPORT. The documented formulations (41_strategies.md R68 to R71, R75): each places the three truncated channels
as `packByOr` does, and `packByOr` is PACK after TRUNCATE. -/

/-- A truncated channel fits its field, so reaching a wider word through the field loses nothing. -/
theorem setWidth_of_truncatedField {n s : Nat} (h : n + s = 8) (v : Byte) (m : Nat) :
    ((v >>> s).setWidth n).setWidth m = (v >>> s).setWidth m := by
  have hfield := (setWidth_eq_ushiftRight_iff h _ v).mpr rfl
  calc ((v >>> s).setWidth n).setWidth m
      = (((v >>> s).setWidth n).setWidth 8).setWidth m := (BitVec.setWidth_setWidth (by omega)).symm
    _ = (v >>> s).setWidth m := by rw [hfield]

theorem packByOr_eq_pack_truncate (r8 g8 b8 : Byte) :
    packByOr (r8 >>> 3) (g8 >>> 2) (b8 >>> 3) = pack (truncate r8 g8 b8) := by
  rw [pack_eq_or, truncate, packByOr, setWidth_of_truncatedField rfl r8, setWidth_of_truncatedField rfl g8,
    setWidth_of_truncatedField rfl b8]

/-- S3 is EXTRACT, TRUNCATE and PACK, PACK taken as OR (41_strategies.md R70). -/
theorem strategy3_eq_convert (x : Packed32Color) : strategy3 x = convert x :=
  packByOr_eq_pack_truncate (byteLane x 0) (byteLane x 1) (byteLane x 2)

/-- The array of S2 holds the lanes that S3 names (41_strategies.md R69). -/
theorem strategy2_eq_strategy3 (x : Packed32Color) : strategy2 x = strategy3 x := rfl

/-- A lane left in the whole word, as S1 takes it. -/
theorem shift_mask_eq_byteLane_setWidth (c : Packed32Color) (k : Nat) :
    (c >>> (8 * k)) &&& 0xFF#32 = (byteLane c k).setWidth 32 := by
  apply BitVec.eq_of_toNat_eq
  rw [BitVec.toNat_setWidth_of_le (by decide), byteLane_toNat, BitVec.toNat_and, BitVec.toNat_ushiftRight,
    Nat.shiftRight_eq_div_pow]
  exact Nat.and_two_pow_sub_one_eq_mod _ 8

/-- A channel shifted down in the whole word and then cut to the result's width. -/
theorem setWidth_of_shifted_lane (v : Byte) (s : Nat) :
    (v.setWidth 32 >>> s).setWidth 16 = (v >>> s).setWidth 16 := by
  rw [← BitVec.setWidth_ushiftRight (by decide), BitVec.setWidth_setWidth_of_le _ (by decide)]

/-- S1 works on the whole word; cutting it to 16 bits is the same as cutting each channel before it is placed
(41_strategies.md R68). -/
theorem strategy1_eq_strategy3 (x : Packed32Color) : strategy1 x = strategy3 x := by
  have hred : (x >>> 0) &&& 0xFF#32 = (byteLane x 0).setWidth 32 := shift_mask_eq_byteLane_setWidth x 0
  have hgreen : (x >>> 8) &&& 0xFF#32 = (byteLane x 1).setWidth 32 := shift_mask_eq_byteLane_setWidth x 1
  have hblue : (x >>> 16) &&& 0xFF#32 = (byteLane x 2).setWidth 32 := shift_mask_eq_byteLane_setWidth x 2
  simp only [strategy1, hred, hgreen, hblue, strategy3, packByOr]
  rw [← BitVec.setWidth_eq_extractLsb' (by decide), BitVec.setWidth_or, BitVec.setWidth_or,
    BitVec.setWidth_shiftLeft_of_le (by decide), BitVec.setWidth_shiftLeft_of_le (by decide),
    setWidth_of_shifted_lane, setWidth_of_shifted_lane, setWidth_of_shifted_lane]

/-- One shift by `t` and a mask on the field's wires, in place of a shift down by `s` and a shift up by `t + s`
(41_strategies.md R71). -/
theorem fused_shift {s t : Nat} {mask : Packed16Color}
    (hmask : ∀ j, j < 16 → mask.getLsbD j = decide (t + s ≤ j ∧ j < t + 8)) (v : Byte) :
    (v.setWidth 16 <<< t) &&& mask = (v >>> s).setWidth 16 <<< (t + s) := by
  refine BitVec.eq_of_getLsbD_eq fun j hj => ?_
  simp only [BitVec.getLsbD_and, BitVec.getLsbD_shiftLeft, BitVec.getLsbD_setWidth, BitVec.getLsbD_ushiftRight,
    hmask j hj]
  by_cases hlow : j < t + s
  · have : ¬ t + s ≤ j := by omega
    simp [hlow, this]
  · have hwire : s + (j - (t + s)) = j - t := by omega
    by_cases hhigh : j < t + 8
    · have : ¬ j < t ∧ t + s ≤ j ∧ j - t < 16 ∧ j - (t + s) < 16 := by omega
      simp [hlow, hhigh, hwire, this]
    · have : v.getLsbD (j - t) = false := BitVec.getLsbD_of_ge _ _ (by omega)
      simp [hwire, this]

/-- S4 fuses the two shifts of red and green; blue takes its one shift at width 16 (41_strategies.md R71). -/
theorem strategy4_eq_strategy3 (x : Packed32Color) : strategy4 x = strategy3 x := by
  have hred := fused_shift (s := 3) (t := 8) (mask := 0xF800#16) (by decide) (byteLane x 0)
  have hgreen := fused_shift (s := 2) (t := 3) (mask := 0x07E0#16) (by decide) (byteLane x 1)
  have hblue : (byteLane x 2).setWidth 16 >>> 3 = (byteLane x 2 >>> 3).setWidth 16 :=
    (BitVec.setWidth_ushiftRight (by decide)).symm
  rw [strategy4, strategy3, packByOr, hred, hgreen, hblue]

theorem strategy1_eq_convert (x : Packed32Color) : strategy1 x = convert x :=
  (strategy1_eq_strategy3 x).trans (strategy3_eq_convert x)

theorem strategy2_eq_convert (x : Packed32Color) : strategy2 x = convert x :=
  (strategy2_eq_strategy3 x).trans (strategy3_eq_convert x)

theorem strategy4_eq_convert (x : Packed32Color) : strategy4 x = convert x :=
  (strategy4_eq_strategy3 x).trans (strategy3_eq_convert x)

/-- Settles O32: S1, S2 and S4 are S3, and S3 is the three stages of CONVERT. -/
theorem fourStrategiesAgreeWithConvert : Obligations.FourStrategiesAgreeWithConvert := by
  unfold Obligations.FourStrategiesAgreeWithConvert
  intro x
  have hagree : StrategiesAgree x :=
    ⟨(strategy1_eq_strategy3 x).trans (strategy2_eq_strategy3 x).symm, strategy2_eq_strategy3 x,
      (strategy4_eq_strategy3 x).symm, strategy4_eq_convert x⟩
  exact ⟨hagree, strategy1_eq_convert x, strategy2_eq_convert x, strategy3_eq_convert x, strategy4_eq_convert x⟩

/-- The wiring form packs the fields of the conversion, each a slice of the word (41_strategies.md R75). -/
theorem convert_eq_wiringForm (x : Packed32Color) : convert x = wiringForm x :=
  calc convert x = pack (fieldsOf (convert x)) := (pack_fieldsOf _).symm
    _ = pack { r5 := x.extractLsb' 3 5, g6 := x.extractLsb' 10 6, b5 := x.extractLsb' 19 5 } := by
      rw [fieldsOf_convert_eq_slices]
    _ = wiringForm x := rfl

/-- Settles O33: each strategy is CONVERT, which is the wiring form field by field and the mask form wire by wire. -/
theorem wiringAndMaskFormsAgree : Obligations.WiringAndMaskFormsAgree := by
  unfold Obligations.WiringAndMaskFormsAgree
  refine ⟨fun x => ?_, by decide⟩
  have hwires := convert_eq_wiringForm x
  exact ⟨rfl, (strategy1_eq_convert x).trans hwires, (strategy2_eq_convert x).trans hwires,
    (strategy3_eq_convert x).trans hwires, (strategy4_eq_convert x).trans hwires, hwires, rfl, convert_eq_maskForm x⟩

end Sys2Proof.Machine

namespace Sys2Proof

open Sys2Proof.Machine

/-! SUPPORT. Conforming implementations (41_strategies.md R78): what is seen of one over a list of inputs, and which
functions conform. -/

@[simp] theorem Implementation.after_nil (impl : Implementation) (h : impl.Hidden) : impl.after [] h = h := rfl

@[simp] theorem Implementation.observe_nil (impl : Implementation) (h : impl.Hidden) :
    impl.observe [] h = ([], []) := rfl

/-- Answering every input right after every history, from whatever is held at first, is the same as being seen to
answer the conversions and nothing else over every list. -/
theorem responds_convert_iff_observes_map (impl : Implementation) (h : impl.Hidden) :
    (∀ before c, (impl.respond (impl.after before h) c).2 = (convert c, [])) ↔
      ∀ cs, impl.observe cs h = (cs.map convert, []) := by
  constructor
  · intro hresponds cs
    induction cs generalizing h with
    | nil => rfl
    | cons c cs ih =>
      have hnow : (impl.respond h c).2 = (convert c, []) := hresponds [] c
      have hlater := ih (impl.respond h c).1 fun before => hresponds (c :: before)
      rw [Implementation.observe_cons, hnow, hlater]
      rfl
  · intro hobserves before
    induction before generalizing h with
    | nil =>
      intro c
      have hsingle := hobserves [c]
      rw [Implementation.observe_cons] at hsingle
      simpa [Prod.ext_iff] using hsingle
    | cons b before ih =>
      refine ih (impl.respond h b).1 fun cs => ?_
      have hlist := hobserves (b :: cs)
      rw [Implementation.observe_cons] at hlist
      simp only [List.map_cons, Prod.mk.injEq, List.cons.injEq, List.append_eq_nil_iff] at hlist
      obtain ⟨⟨-, houtputs⟩, -, heffects⟩ := hlist
      exact Prod.ext houtputs heffects

theorem conforms_iff_observes_map (impl : Implementation) :
    Conforms impl ↔ ∀ cs, impl.observe cs impl.start = (cs.map convert, []) :=
  responds_convert_iff_observes_map impl impl.start

/-- Presenting a list to the block answers the map of CONVERT and nothing else, so that is what is seen of a conforming
implementation; one state of the block is enough to tell. -/
theorem conforms_iff_seen_as_block (impl : Implementation) :
    Conforms impl ↔ ∀ (cs : List Packed32Color) (s : State),
      ∃ t, present cs s = .next (t, (impl.observe cs impl.start).1) ∧ (impl.observe cs impl.start).2 = [] := by
  rw [conforms_iff_observes_map]
  constructor
  · intro hobserves cs s
    rw [hobserves cs]
    exact ⟨_, present_eq cs s, rfl⟩
  · intro hseen cs
    obtain ⟨t, hpresent, heffects⟩ := hseen cs State.reset
    have hanswers := Host.Outcome.next.inj (hpresent.symm.trans (present_eq cs State.reset))
    exact Prod.ext (congrArg Prod.snd hanswers) heffects

/-- A function of the input conforms if and only if it is CONVERT. -/
theorem conforms_ofFunction_iff (f : Packed32Color → Packed16Color) :
    Conforms (.ofFunction f) ↔ ∀ c, f c = convert c := by
  simp only [Conforms, Implementation.ofFunction_respond, Prod.mk.injEq, and_true, forall_const]

/-- A function in the place of CONVERT leaves every step as it is if and only if it is CONVERT. -/
theorem step_drives_iff (f : Packed32Color → Packed16Color) :
    (∀ s : State, step s = .next { color32_i := s.color32_i, color16_o := f s.color32_i }) ↔
      ∀ c, f c = convert c := by
  constructor
  · intro hsteps c
    have hstep := (step_eq (State.reset.drive c)).symm.trans (hsteps (State.reset.drive c))
    exact (congrArg State.color16_o (Host.Outcome.next.inj hstep)).symm
  · intro hf s
    rw [step_eq, hf]
    rfl

theorem conforms_ofBlock : Conforms .ofBlock := fun _ c => congrArg Prod.snd (Implementation.ofBlock_respond _ c)

/-- Settles O34: conforming is to be seen to answer the map of CONVERT, which is what presenting answers; a function
conforms, and drives every step, exactly if it is CONVERT; and each formulation is CONVERT. -/
theorem conformingMeansSameObservations : Obligations.ConformingMeansSameObservations := by
  unfold Obligations.ConformingMeansSameObservations
  refine ⟨conforms_iff_seen_as_block, fun f => (conforms_ofFunction_iff f).trans (step_drives_iff f).symm,
    conforms_ofBlock, fun f hf => (conforms_ofFunction_iff f).mpr ?_⟩
  simp only [List.mem_cons, List.not_mem_nil, or_false] at hf
  rcases hf with rfl | rfl | rfl | rfl | rfl | rfl | rfl
  · exact strategy1_eq_convert
  · exact strategy2_eq_convert
  · exact strategy3_eq_convert
  · exact strategy4_eq_convert
  · exact fun x => (convert_eq_wiringForm x).symm
  · exact fun x => (convert_eq_maskForm x).symm
  · exact fun _ => rfl

/-- Words that agree on the used bits convert alike (30_encoding.md R41). -/
theorem convert_congr_of_used {x x' : Packed32Color}
    (h : x &&& Config.usedInputMask = x' &&& Config.usedInputMask) : convert x = convert x' :=
  convert_congr_of_wires ((and_usedInputMask_eq_iff_of_wires x x').mp h)

/-- Settles O51: after every history a conforming implementation answers CONVERT of the input and no effect; neither
depends on the history, and CONVERT only on the used bits. -/
theorem conformingExcludesEffectsAndHistory : Obligations.ConformingExcludesEffectsAndHistory := by
  unfold Obligations.ConformingExcludesEffectsAndHistory
  intro impl hconforms
  refine ⟨fun before c => ?_, fun before before' c => ?_, fun before c c' hused => ?_⟩
  · rw [hconforms before c]
  · rw [hconforms before c, hconforms before' c]
  · rw [hconforms before c, hconforms before c']
    exact convert_congr_of_used hused

end Sys2Proof

namespace Sys2Proof.Machine

/-! SUPPORT. What the boundary refuses (70_reset_and_hazards.md R104, 60_exceptions.md R92). -/

theorem Level.toBit_eq_none_iff (l : Level) : l.toBit = none ↔ l = .x ∨ l = .z := by
  cases l <;> decide

/-- One wire without a logic value leaves the word without a value. -/
theorem bitsOfLevels_cons_eq_none_iff (l : Level) (ls : List Level) :
    bitsOfLevels (l :: ls) = none ↔ l.toBit = none ∨ bitsOfLevels ls = none := by
  rw [bitsOfLevels]
  cases l.toBit <;> cases bitsOfLevels ls <;> simp

theorem bitsOfLevels_eq_none_iff (levels : List Level) :
    bitsOfLevels levels = none ↔ Level.x ∈ levels ∨ Level.z ∈ levels := by
  induction levels with
  | nil => simp [bitsOfLevels]
  | cons l ls ih =>
    rw [bitsOfLevels_cons_eq_none_iff, Level.toBit_eq_none_iff, ih, List.mem_cons, List.mem_cons, or_or_or_comm,
      eq_comm (a := l), eq_comm (a := l)]

theorem driveLevels_of_length_ne {levels : List Level} (s : State) (h : levels.length ≠ 32) :
    driveLevels levels s = .refused (.wrongWidth levels.length) := if_neg h

theorem driveLevels_of_no_bits {levels : List Level} (s : State) (hlen : levels.length = 32)
    (hbits : bitsOfLevels levels = none) : driveLevels levels s = .refused .notBinaryInput := by
  rw [driveLevels, if_pos hlen, hbits]

theorem driveLevels_of_bits {levels : List Level} {bs : List Bool} (s : State) (hlen : levels.length = 32)
    (hbits : bitsOfLevels levels = some bs) :
    driveLevels levels s = .next (s.drive (BitVec.ofNat 32 (natOfBits bs))) := by
  rw [driveLevels, if_pos hlen, hbits]

theorem driveLevels_refused_iff (levels : List Level) (s : State) :
    (∃ r, driveLevels levels s = .refused r) ↔ levels.length ≠ 32 ∨ bitsOfLevels levels = none := by
  by_cases hlen : levels.length = 32
  · cases hbits : bitsOfLevels levels with
    | none => simp [driveLevels_of_no_bits s hlen hbits]
    | some bs => simp [driveLevels_of_bits s hlen hbits, hlen]
  · simp [driveLevels_of_length_ne s hlen, hlen]

theorem step_ne_fault (s : State) (r : Fault) : step s ≠ .fault r := by
  rw [step_eq]
  nofun

theorem step_ne_refused (s : State) (r : Refusal) : step s ≠ .refused r := by
  rw [step_eq]
  nofun

/-- Settles O4: the step has one answer, a next state; the decoder takes the lanes of every word; and the boundary
refuses for one of its two reasons. -/
theorem stepOnlyAnswersNext : Obligations.StepOnlyAnswersNext := by
  unfold Obligations.StepOnlyAnswersNext
  refine ⟨fun s => ⟨_, step_eq s, rfl, rfl⟩, step_ne_fault, step_ne_refused, fun w => ⟨_, decode_laneBytes w⟩,
    fun levels s => ?_⟩
  rw [driveLevels_refused_iff, bitsOfLevels_eq_none_iff]

/-- Settles O5: no reason to fault exists, the one instruction answers next, and presenting a list answers the map of
`convert`, as long as the list itself. -/
theorem noInstructionAndNoSequenceStops : Obligations.NoInstructionAndNoSequenceStops := by
  unfold Obligations.NoInstructionAndNoSequenceStops
  refine ⟨⟨fun r => nomatch r⟩, fun i s => ?_, fun cs s => ⟨_, _, present_eq cs s, List.length_map convert⟩⟩
  cases i with
  | convert a b g r => exact ⟨_, exec_convert a b g r s⟩

end Sys2Proof.Machine

namespace Sys2Proof.Machine

/-! SUPPORT. The entries of one user, and one block shared by several users (60_exceptions.md R90,
20_memory.md R31). -/

section OfUser
variable {α β : Type}

theorem ofUser_cons_same (u : Nat) (x : α) (xs : List (Nat × α)) : ofUser u ((u, x) :: xs) = x :: ofUser u xs := by
  simp [ofUser]

theorem ofUser_cons_other {u v : Nat} (h : v ≠ u) (x : α) (xs : List (Nat × α)) :
    ofUser u ((v, x) :: xs) = ofUser u xs := by
  simp [ofUser, h]

/-- Changing the entries and keeping their users commutes with taking one user's entries. -/
theorem ofUser_map (f : α → β) (u : Nat) (xs : List (Nat × α)) :
    ofUser u (xs.map fun x => (x.1, f x.2)) = (ofUser u xs).map f := by
  induction xs with
  | nil => rfl
  | cons x xs ih =>
    obtain ⟨v, a⟩ := x
    rw [List.map_cons]
    by_cases h : v = u
    · subst h
      rw [ofUser_cons_same, ofUser_cons_same, List.map_cons, ih]
    · rw [ofUser_cons_other h, ofUser_cons_other h, ih]

end OfUser

/-- Everything the shared block does: each word's conversion goes to the user of that word. -/
theorem presentShared_eq (xs : List (Nat × Packed32Color)) (s : State) :
    presentShared xs s =
      .next ((xs.map Prod.snd).foldl (fun t c => settle (t.drive c)) s, xs.map fun x => (x.1, convert x.2)) := by
  rw [presentShared, present_eq, List.map_map]
  simp only [List.zip_map', Function.comp_apply]

/-- Settles O38: a user's outputs are the conversions of that user's own words, so equal words give equal outputs. -/
theorem timeSharingUsersDoNotInterfere : Obligations.TimeSharingUsersDoNotInterfere := by
  unfold Obligations.TimeSharingUsersDoNotInterfere
  refine ⟨fun xs s => ⟨_, _, presentShared_eq xs s, fun u => ofUser_map convert u xs⟩, fun xs xs' s s' hsame => ?_⟩
  refine ⟨_, _, _, _, presentShared_eq xs s, presentShared_eq xs' s', fun u => ?_⟩
  rw [ofUser_map, ofUser_map, hsame u]

/-! SUPPORT. A board of independent copies, seen from one of them (60_exceptions.md R90, 20_memory.md R30). -/

theorem evaluateOn_length (k : Nat) (c : Packed32Color) (board : List State) :
    (evaluateOn k c board).length = board.length := List.length_modify ..

theorem evaluateOn_getElem?_same (k : Nat) (c : Packed32Color) (board : List State) :
    (evaluateOn k c board)[k]? = board[k]?.map fun s => settle (s.drive c) := by
  simp [evaluateOn]

theorem evaluateOn_getElem?_other {j k : Nat} (h : j ≠ k) (c : Packed32Color) (board : List State) :
    (evaluateOn j c board)[k]? = board[k]? := by
  simp [evaluateOn, h]

theorem runBoard_length (ops : List (Nat × Packed32Color)) (board : List State) :
    (runBoard ops board).length = board.length := by
  induction ops generalizing board with
  | nil => rfl
  | cons op ops ih => exact (ih _).trans (evaluateOn_length op.1 op.2 board)

/-- A copy does with its own words what it does when they are all that is presented (`present_eq`). -/
theorem runBoard_getElem? (ops : List (Nat × Packed32Color)) (board : List State) (k : Nat) :
    (runBoard ops board)[k]? =
      board[k]?.map fun s => (ofUser k ops).foldl (fun t c => settle (t.drive c)) s := by
  induction ops generalizing board with
  | nil => exact Option.map_id'.symm
  | cons op ops ih =>
    obtain ⟨j, c⟩ := op
    rw [runBoard, ih]
    by_cases h : j = k
    · subst h
      rw [evaluateOn_getElem?_same, ofUser_cons_same, Option.map_map]
      rfl
    · rw [evaluateOn_getElem?_other h, ofUser_cons_other h]

/-- Settles O39: each copy folds over its own words alone; over none it stays, and otherwise the last word decides
(as in O37). -/
theorem instancesAreIndependent : Obligations.InstancesAreIndependent := by
  unfold Obligations.InstancesAreIndependent
  intro ops board
  refine ⟨runBoard_length ops board, fun k s hs => ?_⟩
  rw [runBoard_getElem?, hs, Option.map_some]
  refine ⟨fun hnone => ?_, fun c hlast => ?_⟩
  · rw [hnone, List.foldl_nil]
  · obtain ⟨before, hown⟩ := List.getLast?_eq_some_iff.mp hlast
    rw [hown, List.foldl_concat, settle_drive]

end Sys2Proof.Machine

namespace Sys2Proof.Machine

/-! SUPPORT. The bench while one word is held: driving it, waiting and sampling keep the input and count the ticks
(70_reset_and_hazards.md R97, R98). -/

theorem Bench.act_drive (p : Config.Params) (c : Packed32Color) (b : Bench) :
    Bench.act p (.drive c) b =
      (Bench.refresh p
        { b with block := b.block.drive c, held := if c = b.block.color32_i then b.held else 0 }, []) := rfl

@[simp] theorem Bench.act_drive_reads (p : Config.Params) (c : Packed32Color) (b : Bench) :
    (Bench.act p (.drive c) b).2 = [] := rfl

theorem Bench.drive_input (p : Config.Params) (c : Packed32Color) (b : Bench) :
    (Bench.act p (.drive c) b).1.block.color32_i = c :=
  (refresh_input p _).1

/-- Driving another word starts the time held afresh, and with `T_PD > 0` draws a free value. -/
theorem Bench.drive_of_changed (p : Config.Params) {c : Packed32Color} {b : Bench} (hchanged : c ≠ b.block.color32_i)
    (hpos : 0 < p.tPd) :
    (Bench.act p (.drive c) b).1 =
      { block := { color32_i := c, color16_o := Config.unsettledOutput b.draws }, held := 0,
        draws := b.draws + 1 } := by
  rw [Bench.act_drive, if_neg hchanged, refresh_of_not_held p _ (Nat.not_le_of_lt hpos)]
  rfl

/-- Waiting for less than what is left of `T_PD` draws another free value. -/
theorem Bench.wait_of_not_held (p : Config.Params) {dt : Nat} {b : Bench} (hearly : b.held + dt < p.tPd) :
    (Bench.act p (.wait dt) b).1 =
      { block := b.block.driveColor16 (Config.unsettledOutput b.draws), held := b.held + dt,
        draws := b.draws + 1 } := by
  rw [Bench.act_wait, refresh_of_not_held p _ (Nat.not_le_of_lt hearly)]

theorem Bench.run_append (p : Config.Params) (as as' : List BenchAction) (b : Bench) :
    Bench.run p (as ++ as') b =
      ((Bench.run p as' (Bench.run p as b).1).1,
        (Bench.run p as b).2 ++ (Bench.run p as' (Bench.run p as b).1).2) := by
  induction as generalizing b with
  | nil => rfl
  | cons a as ih => rw [List.cons_append, Bench.run_cons, Bench.run_cons, ih, List.append_assoc]

/-- The bench holds `c`, and answers it as soon as it has been held for `T_PD`: the invariant of every schedule that
leaves the input alone. -/
def Bench.Holds (p : Config.Params) (c : Packed32Color) (b : Bench) : Prop :=
  b.block.color32_i = c ∧ (p.tPd ≤ b.held → b.block.color16_o = convert c)

/-- An action that puts no other word than `c` on the input. -/
def BenchAction.Keeps (c : Packed32Color) (a : BenchAction) : Prop :=
  a = .drive c ∨ a = .sample ∨ ∃ dt, a = .wait dt

/-- Refreshing establishes the invariant, whatever stood on the output before. -/
theorem Bench.holds_refresh (p : Config.Params) {c : Packed32Color} {b : Bench} (hinput : b.block.color32_i = c) :
    (Bench.refresh p b).Holds p c := by
  obtain ⟨hsame, hheld⟩ := refresh_input p b
  refine ⟨hsame.trans hinput, fun hpassed => ?_⟩
  rw [hheld] at hpassed
  rw [refresh_of_held p b hpassed, State.driveColor16_color16_o, hinput]

theorem Bench.holds_drive (p : Config.Params) (c : Packed32Color) (b : Bench) :
    (Bench.act p (.drive c) b).1.Holds p c :=
  Bench.holds_refresh p rfl

theorem Bench.Holds.block_eq {p : Config.Params} {c : Packed32Color} {b : Bench} (h : b.Holds p c)
    (hpassed : p.tPd ≤ b.held) : b.block = { color32_i := c, color16_o := convert c } :=
  State.ext_ports h.1 (h.2 hpassed)

/-- An action that keeps the input keeps the invariant, and adds to the time held exactly the ticks it lets pass. -/
theorem Bench.Holds.act {p : Config.Params} {c : Packed32Color} {b : Bench} {a : BenchAction} (h : b.Holds p c)
    (hkeeps : a.Keeps c) :
    (Bench.act p a b).1.Holds p c ∧ (Bench.act p a b).1.held = b.held + totalWait [a] := by
  obtain rfl | rfl | ⟨dt, rfl⟩ := hkeeps
  · refine ⟨Bench.holds_drive p c b, ?_⟩
    rw [Bench.act_drive, if_pos h.1.symm]
    exact (refresh_input p _).2
  · exact ⟨h, rfl⟩
  · exact ⟨Bench.holds_refresh p h.1, (refresh_input p _).2⟩

theorem totalWait_cons (a : BenchAction) (as : List BenchAction) :
    totalWait (a :: as) = totalWait [a] + totalWait as := by
  cases a <;> simp [totalWait]

/-- A whole schedule that keeps the input keeps the invariant, and its ticks add up, however they are cut up. -/
theorem Bench.Holds.run {p : Config.Params} {c : Packed32Color} {b : Bench} {as : List BenchAction} (h : b.Holds p c)
    (hkeeps : ∀ a ∈ as, a.Keeps c) :
    (Bench.run p as b).1.Holds p c ∧ (Bench.run p as b).1.held = b.held + totalWait as := by
  induction as generalizing b with
  | nil => exact ⟨h, rfl⟩
  | cons a as ih =>
    obtain ⟨ha, has⟩ := List.forall_mem_cons.mp hkeeps
    obtain ⟨hnow, hheld⟩ := h.act ha
    obtain ⟨hlater, htotal⟩ := ih hnow has
    rw [Bench.run_cons]
    refine ⟨hlater, ?_⟩
    rw [htotal, hheld, totalWait_cons a as, Nat.add_assoc]

/-- Driving a word and keeping it for `T_PD` brings the ports to that word and its conversion. -/
theorem Bench.block_of_kept (p : Config.Params) (b : Bench) {c : Packed32Color} {as : List BenchAction}
    (hkeeps : ∀ a ∈ as, a.Keeps c) (hpassed : p.tPd ≤ totalWait as) :
    (Bench.run p (.drive c :: as) b).1.block = { color32_i := c, color16_o := convert c } := by
  obtain ⟨hholds, htotal⟩ := (Bench.holds_drive p c b).run hkeeps
  rw [Bench.run_cons]
  exact hholds.block_eq (htotal ▸ Nat.le_add_left_of_le hpassed)

/-- Settles O42: driving `c` establishes the invariant and the schedule keeps it, so at the end `c` has been held for
at least `T_PD`; the sample after it reads what then stands on the output. -/
theorem heldInputIsAnsweredAfterSettleTime : Obligations.HeldInputIsAnsweredAfterSettleTime := by
  unfold Obligations.HeldInputIsAnsweredAfterSettleTime
  intro p b c as hkeeps hpassed
  have hblock := Bench.block_of_kept p b hkeeps hpassed
  refine ⟨hblock, ?_⟩
  rw [Bench.run_append, Bench.run_cons p .sample, Bench.act_sample, hblock]
  exact List.getLast?_concat

/-- Settles O43: both the change of input and the wait end before `T_PD`, so each draws the next free value. -/
theorem unsettledOutputIsTheFreeValue : Obligations.UnsettledOutputIsTheFreeValue := by
  unfold Obligations.UnsettledOutputIsTheFreeValue
  intro p b c dt hchanged hearly
  have hdrive := Bench.drive_of_changed p hchanged (Nat.zero_lt_of_lt hearly)
  have hwait := Bench.wait_of_not_held p (dt := dt) (b := (Bench.act p (.drive c) b).1)
    (by rw [hdrive, Nat.zero_add]; exact hearly)
  rw [hdrive] at hwait
  simp [hwait, hdrive]

/-! SUPPORT. The schedule that keeps the settle time, against the functional model (R97, R100; 40_convert.md R62). -/

/-- One round of the schedule reads the conversion of its word, from every bench. -/
theorem Bench.run_round_reads (p : Config.Params) (c : Packed32Color) (b : Bench) :
    (Bench.run p [.drive c, .wait p.tPd, .sample] b).2 = [convert c] := by
  have hblock := Bench.wait_block_of_held p p.tPd (Bench.act p (.drive c) b).1 (Nat.le_add_left _ _)
  rw [Bench.drive_input] at hblock
  simp [hblock]

theorem disciplined_cons (p : Config.Params) (c : Packed32Color) (cs : List Packed32Color) :
    disciplined p (c :: cs) = [.drive c, .wait p.tPd, .sample] ++ disciplined p cs := rfl

theorem Bench.run_disciplined_reads (p : Config.Params) (cs : List Packed32Color) (b : Bench) :
    (Bench.run p (disciplined p cs) b).2 = cs.map convert := by
  induction cs generalizing b with
  | nil => rfl
  | cons c cs ih =>
    rw [disciplined_cons, Bench.run_append, Bench.run_round_reads, ih]
    rfl

/-- Settles O44: the samples and the outputs of `present` are both the map of `convert`. -/
theorem disciplinedBenchRefinesTheFunctionalModel : Obligations.DisciplinedBenchRefinesTheFunctionalModel := by
  unfold Obligations.DisciplinedBenchRefinesTheFunctionalModel
  intro p cs b s
  rw [Bench.run_disciplined_reads]
  exact ⟨_, present_eq cs s, rfl⟩

/-- Settles O11: an evaluation answers the word and its conversion, from reset as from any state. -/
theorem firstEvaluationIsLikeEveryLaterOne : Obligations.FirstEvaluationIsLikeEveryLaterOne := by
  unfold Obligations.FirstEvaluationIsLikeEveryLaterOne
  intro c s
  exact ⟨evaluate_eq c State.reset, (evaluate_eq c s).trans (evaluate_eq c State.reset).symm⟩

end Sys2Proof.Machine

namespace Sys2Proof.Machine

/-! SUPPORT. The registered wrapper, clock edge by clock edge (70_reset_and_hazards.md R103). -/

/-- An edge that meets its timing captures the answer to the word on the input, launches the next and draws nothing. -/
theorem Registered.edge_of_met {p : Config.Params} {setup period : Nat} (hmet : p.tPd + setup < period)
    (next : Packed32Color) (w : Registered) :
    Registered.edge p setup period next w =
      { block := { color32_i := next, color16_o := convert w.block.color32_i },
        captured := convert w.block.color32_i, draws := w.draws } := by
  rw [Registered.edge, if_pos hmet, settle_eq]
  rfl

theorem Registered.run_cons (p : Config.Params) (setup period : Nat) (c : Packed32Color) (cs : List Packed32Color)
    (w : Registered) :
    Registered.run p setup period (c :: cs) w =
      ((Registered.run p setup period cs (Registered.edge p setup period c w)).1,
        (Registered.edge p setup period c w).captured ::
          (Registered.run p setup period cs (Registered.edge p setup period c w)).2) := rfl

/-- Settles O45: by induction on the edges; the word launched at an edge is the one answered at the next. -/
theorem registeredWrapperDelaysByOneEdge : Obligations.RegisteredWrapperDelaysByOneEdge := by
  unfold Obligations.RegisteredWrapperDelaysByOneEdge
  intro p setup period cs w hmet
  induction cs generalizing w with
  | nil => exact ⟨rfl, rfl⟩
  | cons c cs ih =>
    obtain ⟨hlater, hdraws⟩ := ih (Registered.edge p setup period c w)
    rw [Registered.run_cons, hlater, hdraws, Registered.edge_of_met hmet]
    exact ⟨rfl, rfl⟩

end Sys2Proof.Machine

namespace Sys2Proof.Machine

/-! SUPPORT. What the boundary accepts (70_reset_and_hazards.md R104, 93_implementation_defined.md U1, U4). -/

/-- The level that carries a logic value. -/
def Level.ofBit (b : Bool) : Level :=
  if b then .one else .zero

theorem Level.toBit_ofBit (b : Bool) : (Level.ofBit b).toBit = some b := by
  cases b <;> rfl

theorem bitsOfLevels_map_ofBit (bs : List Bool) : bitsOfLevels (bs.map Level.ofBit) = some bs := by
  induction bs with
  | nil => rfl
  | cons b bs ih => rw [List.map_cons, bitsOfLevels, Level.toBit_ofBit, ih]

/-- The low `n` bits of a number spell it modulo `2 ^ n`, bit 0 first (00_scope.md R7). -/
theorem natOfBits_map_testBit (n x : Nat) : natOfBits ((List.range n).map x.testBit) = x % 2 ^ n := by
  induction n generalizing x with
  | zero => simp [natOfBits, Nat.mod_one]
  | succ n ih =>
    have hshift : x.testBit ∘ Nat.succ = (x / 2).testBit := funext fun j => Nat.testBit_succ x j
    have hlow : (x.testBit 0).toNat = x % 2 := by rw [Nat.toNat_testBit, Nat.pow_zero, Nat.div_one]
    rw [List.range_succ_eq_map, List.map_cons, List.map_map, hshift, natOfBits, ih, hlow, Nat.pow_succ', Nat.mod_mul]

/-- The 32 levels of a word, wire 0 first, drive that word. -/
theorem driveLevels_of_word (w : Packed32Color) (s : State) :
    driveLevels ((List.range 32).map fun j => if w.getLsbD j then Level.one else Level.zero) s
      = .next (s.drive w) := by
  have hlevels : ((List.range 32).map fun j => if w.getLsbD j then Level.one else Level.zero)
      = ((List.range 32).map w.toNat.testBit).map Level.ofBit := by
    rw [List.map_map]
    rfl
  have hbits := bitsOfLevels_map_ofBit ((List.range 32).map w.toNat.testBit)
  rw [hlevels, driveLevels_of_bits s (by simp) hbits, natOfBits_map_testBit, Nat.mod_eq_of_lt w.isLt,
    BitVec.ofNat_toNat, BitVec.setWidth_eq]

/-- No reason to fault exists, so what is not refused has a next state. -/
theorem exists_next_iff_not_refused (o : Host.Outcome State Fault Refusal) :
    (∃ t, o = .next t) ↔ ¬ ∃ r, o = .refused r := by
  cases o with
  | next t => simp
  | fault r => exact nomatch r
  | refused r => simp

theorem driveBy_one (w : Packed32Color) (s : State) : driveBy [w] s = .next (s.drive w) := rfl

theorem driveBy_refused_iff (drivers : List Packed32Color) (s : State) :
    (∃ r, driveBy drivers s = .refused r) ↔ drivers.length ≠ 1 := by
  match drivers with
  | [] => exact ⟨fun _ => by decide, fun _ => ⟨_, rfl⟩⟩
  | [c] => simp [driveBy_one]
  | c :: d :: rest => exact ⟨fun _ => by simp, fun _ => ⟨_, rfl⟩⟩

/-- Settles O41: the boundary accepts what it does not refuse, and it refuses other than 32 wires, a wire without a
logic value, and other than one driver. -/
theorem boundaryAcceptsExactlyBinaryWords : Obligations.BoundaryAcceptsExactlyBinaryWords := by
  unfold Obligations.BoundaryAcceptsExactlyBinaryWords
  refine ⟨driveLevels_of_word, fun levels s => ?_, fun drivers s => ?_, driveBy_one⟩
  · rw [exists_next_iff_not_refused, driveLevels_refused_iff, bitsOfLevels_eq_none_iff, not_or, not_or, not_not]
  · rw [exists_next_iff_not_refused, driveBy_refused_iff, not_not]

end Sys2Proof.Machine
